-- ==== Sys2Proof/Word.lean ====
section
/-! DEFINITION. The words on the ports: their widths are fixed, none is a parameter (00_scope.md R4; 30_encoding.md R26, R27, R29, R30). -/

namespace Sys2Proof

/-- A message: 11 bits, unsigned, `m[10]` the most significant (R26). -/
abbrev Message := BitVec 11

/-- A codeword: 16 bits, unsigned; position `p` is integer bit `15 - p` (R5, R27). -/
abbrev Codeword := BitVec 16

/-- A syndrome: 4 bits, unsigned; read as an integer it names a position (R29). -/
abbrev Syndrome := BitVec 4

/-- A codeword position, 0 to 15 (R5); an index, not a word. -/
abbrev Position := Fin 16

end Sys2Proof
end

