-- ==== Sys2Proof/Syntax.lean ====
section
/-! DEFINITION. The four operations of spec/opcode_table.json and the form in which a host asks for one. -/

namespace Sys2Proof

/-- Which block's inputs the host drives. This, and no opcode bit, selects the operation (30_encoding.md R24, D12). -/
inductive Operation where
  /-- `hamming_ecc_16b_encoder`. -/
  | enc
  /-- `hamming_ecc_16b_syndrome_decoder`. -/
  | syn
  /-- `secded_error_corrector`. -/
  | cor
  /-- The syndrome decoder wired into the corrector, on one codeword. -/
  | dec
  deriving DecidableEq, Repr

/-- One transaction as the host asks for it (R25): the block it drives, and the input word as spec/opcode_table.json
lays it out, bit 0 the least significant.
`word` is unbounded because a host can ask for `ENC v` with a `v` that does not fit `msg_i` (40_encoder.md R42).
`unknown` marks the bits of the input word that are undriven, floating or unknown (X/Z): bit `k` of it is 1 exactly when
bit `k` of the input word has no defined 0/1 value (70_reset_and_hazards.md R82). -/
structure Request where
  operation : Operation
  word : Nat
  unknown : Nat
  deriving DecidableEq, Repr

/-- The operations, one constructor per row of spec/opcode_table.json, with every operand driven to a defined value. -/
inductive Instr where
  /-- `ENC v` (R36) at the transaction level: `v` is an unbounded unsigned value (`ENC_txn`, R42). -/
  | enc (v : Nat)
  /-- `SYN c` (R44). -/
  | syn (c : Codeword)
  /-- `COR c, s, t` (R50): three separate ports (R31); `t` is true when the total parity is odd (R30). -/
  | cor (c : Codeword) (s : Syndrome) (t : Bool)
  /-- `DEC c` (R58). -/
  | dec (c : Codeword)
  deriving DecidableEq, Repr

/-- Why a request is no operation of the core. -/
inductive DecodeError where
  /-- An input bit is undriven, floating or unknown (R82). -/
  | inputUndriven
  /-- The input word has more bits than the operation's input ports (R13, R34). -/
  | wordTooWide (op : Operation)
  deriving DecidableEq, Repr

end Sys2Proof
end

