-- ==== Sys2Proof/WellFormed.lean ====
section
/-! DEFINITION. Which operations meet the spec's precondition on their operands. -/

namespace Sys2Proof

/-- ENC's operand is a message in [0, 2047] (40_encoder.md R42). Every value of the other operations' ports is legal
(30_encoding.md R33), and their operands' types hold exactly those values. -/
def Instr.wellFormed : Instr → Bool
  | .enc v => decide (v ≤ 2047)
  | .syn _ => true
  | .cor _ _ _ => true
  | .dec _ => true

end Sys2Proof
end

