-- ==== Sys2Proof/Decode.lean ====
section
/-! DEFINITION. From a request's input word to the operation, and back (30_encoding.md R24, R26, R27, R31; spec/opcode_table.json). -/

namespace Sys2Proof

/-- The width of each operation's input word (R24's table). -/
def Operation.width : Operation → Nat
  | .enc => 11
  | .syn => 16
  | .cor => 21
  | .dec => 16

/-- COR's input word holds the codeword in `x[20:5]` (R31). -/
def corCodewordField (x : BitVec 21) : Codeword := x.extractLsb' 5 16

/-- COR's input word holds the syndrome in `x[4:1]` (R31). -/
def corSyndromeField (x : BitVec 21) : Syndrome := x.extractLsb' 1 4

/-- COR's input word holds the total parity in `x[0]` (R31). -/
def corParityField (x : BitVec 21) : Bool := x.getLsbD 0

/-- `{cw_i[15:0], syndrome_i[3:0], parity_odd_i}`: COR's three ports written as one word (R31). -/
def corWord (c : Codeword) (s : Syndrome) (t : Bool) : BitVec 21 :=
  c ++ s ++ BitVec.ofBool t

/-- The operation an in-range input word stands for: the block selects it, and every bit pattern is legal (R24, R33). -/
def decodeWord (op : Operation) (w : Nat) : Instr :=
  match op with
  | .enc => .enc w
  | .syn => .syn (BitVec.ofNat 16 w)
  | .cor =>
    let x := BitVec.ofNat 21 w
    .cor (corCodewordField x) (corSyndromeField x) (corParityField x)
  | .dec => .dec (BitVec.ofNat 16 w)

/-- The request fits its block's ports. ENC's value is not cut to its port here: R42 makes a value above 2047 a
precondition violation of the operation, which its meaning raises. -/
def Request.fits (r : Request) : Bool :=
  r.operation == .enc || decide (r.word < 2 ^ r.operation.width)

/-- The operation a request stands for. DESIGN CHOICE (log entry 6): any mark in `unknown`, one above the operation's width
included, is an undriven input (R82), and it is looked at before the width of the word and before ENC's range. -/
def decode (r : Request) : Except DecodeError Instr :=
  if r.unknown ≠ 0 then .error .inputUndriven
  else if r.fits then .ok (decodeWord r.operation r.word)
  else .error (.wordTooWide r.operation)

/-- The block an operation drives (R24). -/
def Instr.operation : Instr → Operation
  | .enc _ => .enc
  | .syn _ => .syn
  | .cor _ _ _ => .cor
  | .dec _ => .dec

/-- The input word of an operation, as spec/opcode_table.json's "encoding" column lays it out. -/
def Instr.inputWord : Instr → Nat
  | .enc v => v
  | .syn c => c.toNat
  | .cor c s t => (corWord c s t).toNat
  | .dec c => c.toNat

/-- The request by which a host asks for an operation, every input bit driven (R25). -/
def encode (i : Instr) : Request :=
  { operation := i.operation, word := i.inputWord, unknown := 0 }

/-- DESIGN CHOICE (log entry 3): the block a bare table word is given to. The table's words hold no opcode bit (R24), so
only the width can tell rows apart: 11 bits is ENC, more than 16 is COR, and 16 is SYN, the first row of exactly that
width (ENC padded to whole bytes and DEC have it too). -/
def tableOperation (nbits : Nat) : Operation :=
  if nbits ≤ 11 then .enc else if nbits ≤ 16 then .syn else .cor

/-- The request that a bare table word stands for, every bit driven. -/
def tableRequest (nbits w : Nat) : Request :=
  { operation := tableOperation nbits, word := w, unknown := 0 }

/-- The operation the decoder reads from a bare word of spec/opcode_table.json (log entry 3). -/
def decodeTableWord (nbits w : Nat) : Option Instr :=
  match decode (tableRequest nbits w) with
  | .ok i => some i
  | .error _ => none

end Sys2Proof
end

