-- ==== Sys2Proof/Machine/State.lean ====
section
/-! DEFINITION. What the machine holds: the values on the ports during one transaction (10_state.md R9, R13), and the
transactions the host has asked for and not yet run (R25). The core itself stores nothing (R8). -/

namespace Sys2Proof.Machine

/-- The ports of `hamming_ecc_16b_encoder` (R13). `none`: not driven, so no defined value (R79, R82). -/
structure EncoderPorts where
  msg_i : Option Message
  cw_o : Option Codeword
  deriving DecidableEq, Repr

/-- The ports of `hamming_ecc_16b_syndrome_decoder` (R13). `none`: no defined value. -/
structure SyndromeDecoderPorts where
  cw_i : Option Codeword
  syndrome_o : Option Syndrome
  /-- true: an odd count of 1 bits (R30). -/
  parity_odd_o : Option Bool
  deriving DecidableEq, Repr

/-- The ports of `secded_error_corrector` (R13). `none`: no defined value. -/
structure CorrectorPorts where
  cw_i : Option Codeword
  syndrome_i : Option Syndrome
  parity_odd_i : Option Bool
  cw_corr_o : Option Codeword
  msg_o : Option Message
  single_err_o : Option Bool
  uncorrectable_o : Option Bool
  deriving DecidableEq, Repr

/-- The whole machine: every port of R13, and the host's queue. -/
structure State where
  encoder : EncoderPorts
  syndromeDecoder : SyndromeDecoderPorts
  corrector : CorrectorPorts
  /-- The transactions the host has asked for, oldest first; sequencing is the host's (R10, R25). -/
  pending : List Request
  deriving DecidableEq, Repr

/-- The two model faults of 60_exceptions.md R71. Both are safe: the spec gives the faulted transaction no result. -/
inductive Fault where
  /-- Raised by `execEnc` for `ENC v` with `v > 2047` (R42, D9). Safe: a system that truncates would only lose claims. -/
  | preconditionViolation
  /-- Raised by `step` when a transaction starts with an input undriven or unknown (R82, D15), and by a host procedure
  that samples an output nothing drives (R79). Safe: no value is picked. -/
  | undrivenInput
  deriving DecidableEq, Repr

/-- Why the machine runs no operation. -/
inductive Refusal where
  /-- An arm of `exec` without a meaning; no arm answers it. Safe. -/
  | notModelled (mnemonic : String)
  /-- Raised by `step`: the input word has more bits than the block's input ports, so no transaction of R34 carries it
  (log entry 4). Safe. -/
  | inputTooWide (op : Operation)
  deriving DecidableEq, Repr

/-- The four rows of the decision table of 42_error_corrector.md R50. -/
inductive Row where
  /-- Syndrome 0, even parity: no error (R51). -/
  | noError
  /-- Syndrome 0, odd parity: degenerate, treated as no error (R52). -/
  | degenerate
  /-- Syndrome not 0, odd parity: single-bit error at that position (R53). -/
  | singleError
  /-- Syndrome not 0, even parity: double-bit error (R54). -/
  | doubleError
  deriving DecidableEq, Repr

/-- The tagged decode outcome (R56, D8). -/
inductive DecodeOutcome where
  | recoveredMessage (v : Fin 2048)
  | uncorrectableError
  deriving DecidableEq, Repr

/-- No port of the encoder has a defined value. -/
def EncoderPorts.undriven : EncoderPorts := { msg_i := none, cw_o := none }

/-- No port of the syndrome decoder has a defined value. -/
def SyndromeDecoderPorts.undriven : SyndromeDecoderPorts :=
  { cw_i := none, syndrome_o := none, parity_odd_o := none }

/-- No port of the corrector has a defined value. -/
def CorrectorPorts.undriven : CorrectorPorts :=
  { cw_i := none, syndrome_i := none, parity_odd_i := none, cw_corr_o := none, msg_o := none,
    single_err_o := none, uncorrectable_o := none }

/-- Power-up: no state has a reset value (R78); before the inputs are driven the outputs have no defined value (R79). The
host has asked for nothing (log entry 2). -/
def State.reset : State :=
  { encoder := .undriven, syndromeDecoder := .undriven, corrector := .undriven, pending := [] }

end Sys2Proof.Machine
end

