-- ==== Sys2Proof/Machine/Ops.lean ====
section
/-! DEFINITION. The primitives of 00_scope.md section 5 over positions and parities, what a transaction drives, and the
host's queue. The core takes no exception, trap or interrupt (60_exceptions.md R69, R72, R74), so there is no exception
entry or return here; its place is taken by `raise`, the spec's `raise Fault(reason)`. -/

namespace Sys2Proof.Machine

/-- `pos(c, p) = c[15 - p]` (R5). -/
def pos (c : Codeword) (p : Position) : Bool := c.getLsbD (15 - p.val)

/-- The word in which only position `p` is 1: `0x8000 >> p`. -/
def positionBit (p : Position) : Codeword := 0x8000#16 >>> p.val

/-- `flip(c, p) = c ^ (0x8000 >> p)` (00_scope.md section 5; the host's FLIP, R68). -/
def flip (c : Codeword) (p : Position) : Codeword := c ^^^ positionBit p

/-- `pos(c, p) <- b`. -/
def setPos (c : Codeword) (p : Position) (b : Bool) : Codeword :=
  if b then c ||| positionBit p else c &&& ~~~(positionBit p)

/-- All positions, ascending. -/
def allPositions : List Position := [0, 1, 2, 3, 4, 5, 6, 7, 8, 9, 10, 11, 12, 13, 14, 15]

/-- `DATA`: the data positions, ascending (R6). -/
def dataPositions : List Position := [3, 5, 6, 7, 9, 10, 11, 12, 13, 14, 15]

/-- `PAR`: the group-parity positions, ascending (R6); entry `j` is position `2^j`. -/
def parityPositions : List Position := [1, 2, 4, 8]

/-- The number of 1 bits in `w` (00_scope.md section 5). -/
def popcount {n : Nat} (w : BitVec n) : Nat := (List.range n).countP (fun i => w.getLsbD i)

/-- The XOR of a list of bits. -/
def xorAll (bits : List Bool) : Bool := bits.foldl (fun acc b => acc ^^ b) false

/-- `xor_reduce(w)`: the XOR of all bits of `w` (00_scope.md section 5). -/
def xorReduce {n : Nat} (w : BitVec n) : Bool := xorAll ((List.range n).map (fun i => w.getLsbD i))

/-- The model's `raise Fault(reason)`: the transaction has no result and there is no state after it (R71). -/
def raise (f : Fault) : Host.Outcome State Fault Refusal := .fault f

/-- A transaction drives one operation's ports and no others (R24), and no output survives its transaction (R11, R72):
every port is undriven before the operation's own are driven. DEDUCED (log entry 1). -/
def State.releasePorts (s : State) : State :=
  { s with encoder := .undriven, syndromeDecoder := .undriven, corrector := .undriven }

/-- A transaction on the encoder alone. -/
def State.driveEncoder (s : State) (p : EncoderPorts) : State :=
  { s.releasePorts with encoder := p }

/-- A transaction on the syndrome decoder alone. -/
def State.driveSyndromeDecoder (s : State) (p : SyndromeDecoderPorts) : State :=
  { s.releasePorts with syndromeDecoder := p }

/-- A transaction on the corrector alone. -/
def State.driveCorrector (s : State) (p : CorrectorPorts) : State :=
  { s.releasePorts with corrector := p }

/-- A transaction on the syndrome decoder and the corrector together, as DEC wires them (R58). -/
def State.driveWired (s : State) (p : SyndromeDecoderPorts) (q : CorrectorPorts) : State :=
  { s.releasePorts with syndromeDecoder := p, corrector := q }

/-- The host asks for `r` ahead of everything still pending. -/
def State.submit (s : State) (r : Request) : State := { s with pending := r :: s.pending }

/-- The next request the host asked for, and the machine without it (R10, R25). -/
def fetch (s : State) : Option (Request × State) :=
  match s.pending with
  | [] => none
  | r :: rest => some (r, { s with pending := rest })

/-- With nothing asked for, no transaction starts and the port values stay (R14, R19). DEDUCED (log entry 5). -/
def idle (s : State) : Host.Outcome State Fault Refusal := .next s

/-- What the machine answers to a request that is no operation: R82's fault, or the refusal of log entry 4. -/
def rejectRequest : DecodeError → Host.Outcome State Fault Refusal
  | .inputUndriven => raise .undrivenInput
  | .wordTooWide op => .refused (.inputTooWide op)

end Sys2Proof.Machine
end

