-- ==== Sys2Proof/Machine/Flags.lean ====
section
/-! DEFINITION. The status outputs of the corrector and the outcome they stand for. None is stored (10_state.md R11). -/

namespace Sys2Proof.Machine

/-- Which row of R50's decision table applies; the rows partition the values of (syndrome, parity) (R73). -/
def row (s : Syndrome) (t : Bool) : Row :=
  if s = 0 then (if t then .degenerate else .noError)
  else (if t then .singleError else .doubleError)

/-- `single_err_o`: 1 exactly in row 3 (R51 to R54). -/
def singleErr : Row → Bool
  | .noError => false
  | .degenerate => false
  | .singleError => true
  | .doubleError => false

/-- `uncorrectable_o`: 1 exactly in row 4 (R51 to R54). -/
def uncorrectable : Row → Bool
  | .noError => false
  | .degenerate => false
  | .singleError => false
  | .doubleError => true

/-- The outcome that the tag and the message stand for (R56). The tag alone decides: no message value signals an
error. -/
def outcomeOf (unc : Bool) (msg : Message) : DecodeOutcome :=
  if unc then .uncorrectableError else .recoveredMessage msg.toFin

/-- The outcome on the corrector's ports, when they carry one (R32, R56). -/
def CorrectorPorts.outcome (p : CorrectorPorts) : Option DecodeOutcome :=
  match p.uncorrectable_o, p.msg_o with
  | some u, some m => some (outcomeOf u m)
  | _, _ => none

/-- R70's outcome code `{uncorrectable_o, single_err_o}`, when the ports carry one. -/
def CorrectorPorts.code (p : CorrectorPorts) : Option (BitVec 2) :=
  match p.uncorrectable_o, p.single_err_o with
  | some u, some e => some (BitVec.ofBool u ++ BitVec.ofBool e)
  | _, _ => none

end Sys2Proof.Machine
end

