-- ==== Sys2Proof/Machine/SyndromeDecoder.lean ====
section
/-! DEFINITION. SYN, the operation of `hamming_ecc_16b_syndrome_decoder` (41_syndrome_decoder.md). -/

namespace Sys2Proof.Machine

/-- The syndrome: the XOR of the positions whose bit is 1, each as a 4-bit value (R45). "Bit `i` of the input" is
position `i` (90_conflicts.md C1). -/
def syndrome (c : Codeword) : Syndrome :=
  allPositions.foldl (fun s i => if pos c i then s ^^^ BitVec.ofFin i else s) 0#4

/-- The total parity: true when the number of 1 bits is odd (R46). -/
def totalParity (c : Codeword) : Bool := xorReduce c

/-- The syndrome decoder's ports with a received word on `cw_i` (R44). -/
def syndromeDecoderPorts (c : Codeword) : SyndromeDecoderPorts :=
  { cw_i := some c, syndrome_o := some (syndrome c), parity_odd_o := some (totalParity c) }

/-- SYN (R44). It is total (R49). -/
def execSyn (c : Codeword) (s : State) : Host.Outcome State Fault Refusal :=
  .next (s.driveSyndromeDecoder (syndromeDecoderPorts c))

end Sys2Proof.Machine
end

