-- ==== Sys2Proof/Machine/Corrector.lean ====
section
/-! DEFINITION. COR, the operation of `secded_error_corrector`, and DEC, the composite decode (42_error_corrector.md). -/

namespace Sys2Proof.Machine

/-- `EXTRACT(c)`: the data positions in ascending order, the first the most significant bit (R55). The shift drops what
leaves 11 bits, which is R55's `& 0x7FF`. -/
def extract (c : Codeword) : Message :=
  dataPositions.foldl (fun m p => (m <<< 1) ||| (BitVec.ofBool (pos c p)).setWidth 11) 0#11

/-- `cw_corr_o`: only row 3 flips a bit, at the position the syndrome names (R51 to R54). -/
def correctedWord (c : Codeword) (s : Syndrome) : Row → Codeword
  | .noError => c
  | .degenerate => c
  | .singleError => flip c s.toFin
  | .doubleError => c

/-- `msg_o`: extracted from the corrected word; 0 in row 4, where nothing is extracted (R51 to R55; row 4's value is
decision D6). -/
def recoveredWord (c : Codeword) (s : Syndrome) : Row → Message
  | .noError => extract c
  | .degenerate => extract c
  | .singleError => extract (flip c s.toFin)
  | .doubleError => 0#11

/-- The corrector's ports with `c`, `s` and `t` on its inputs, as they are (R50, R57). -/
def correctorPorts (c : Codeword) (s : Syndrome) (t : Bool) : CorrectorPorts :=
  let r := row s t
  { cw_i := some c, syndrome_i := some s, parity_odd_i := some t,
    cw_corr_o := some (correctedWord c s r), msg_o := some (recoveredWord c s r),
    single_err_o := some (singleErr r), uncorrectable_o := some (uncorrectable r) }

/-- COR (R50). It is total (R61) and does not check that `s` and `t` belong to `c` (R57). -/
def execCor (c : Codeword) (s : Syndrome) (t : Bool) (st : State) : Host.Outcome State Fault Refusal :=
  .next (st.driveCorrector (correctorPorts c s t))

/-- DEC (R58): one codeword drives both blocks, `syndrome_o` drives `syndrome_i` and `parity_odd_o` drives
`parity_odd_i` (R81 takes this wiring as given). -/
def execDec (c : Codeword) (s : State) : Host.Outcome State Fault Refusal :=
  .next (s.driveWired (syndromeDecoderPorts c) (correctorPorts c (syndrome c) (totalParity c)))

end Sys2Proof.Machine
end

