-- ==== Sys2Proof/Machine/Operands.lean ====
section
/-! DEFINITION. The one operand check of the core (40_encoder.md R42). Every other operand arrives whole on its ports and
every value is legal (R15, R33); COR's three operands are cut from its input word in Decode.lean (R31). -/

namespace Sys2Proof.Machine

/-- `ENC_txn`'s check: a value above 2047 violates the precondition and is not truncated; otherwise the message is
`v[10:0]` (R42). -/
def messageOperand (v : Nat) : Except Fault Message :=
  if v > 2047 then .error .preconditionViolation else .ok (BitVec.ofNat 11 v)

end Sys2Proof.Machine
end

