-- ==== Sys2Proof/Machine/Encoder.lean ====
section
/-! DEFINITION. ENC, the operation of `hamming_ecc_16b_encoder` (40_encoder.md). -/

namespace Sys2Proof.Machine

/-- Step 1, data placement: `pos(c, DATA[10-k]) <- m[k]`, every other position 0 (R37). -/
def placeData (m : Message) : Codeword :=
  (List.range 11).foldl (fun c k => setPos c (dataPositions.getD (10 - k) 0) (m.getLsbD k)) 0#16

/-- The coverage of group-parity position `2^j`: the positions 1 to 15, other than `2^j`, whose index has bit `j`
set (R38). -/
def coverage (j : Nat) : List Position :=
  allPositions.filter (fun i => i.val ≠ 0 && i.val ≠ 2 ^ j && i.val.testBit j)

/-- The even parity of a group's covered positions (R7, R38). -/
def groupParity (c : Codeword) (j : Nat) : Bool := xorAll ((coverage j).map (pos c))

/-- Step 2, group parity: each position `2^j` is set to the even parity of its coverage (R38). -/
def placeGroupParity (c : Codeword) : Codeword :=
  (List.range 4).foldl (fun c j => setPos c (parityPositions.getD j 0) (groupParity c j)) c

/-- Step 3, overall parity: position 0 is set to the even parity of positions 1 to 15 (R39). -/
def placeOverallParity (c : Codeword) : Codeword :=
  setPos c 0 (xorAll (allPositions.tail.map (pos c)))

/-- ENC's codeword (R36): steps 1, 2 and 3 in order; step 4 carries it to `cw_o` as it is (R40). -/
def encodeMessage (m : Message) : Codeword := placeOverallParity (placeGroupParity (placeData m))

/-- The encoder's ports with a message on `msg_i` (R36, R40). -/
def encoderPorts (m : Message) : EncoderPorts := { msg_i := some m, cw_o := some (encodeMessage m) }

/-- ENC (R36), as the host's transaction `ENC_txn` (R42): a value above 2047 faults, and every message gives a
codeword (R41). -/
def execEnc (v : Nat) (s : State) : Host.Outcome State Fault Refusal :=
  match messageOperand v with
  | .error f => raise f
  | .ok m => .next (s.driveEncoder (encoderPorts m))

end Sys2Proof.Machine
end

