-- ==== Sys2Proof/Machine/Dispatch.lean ====
section
/-! DEFINITION. One arm per operation of spec/opcode_table.json. -/

namespace Sys2Proof.Machine

def exec (i : Instr) (s : State) : Host.Outcome State Fault Refusal :=
  match i with
  | .enc v => Sys2Proof.Machine.execEnc v s
  | .syn c => Sys2Proof.Machine.execSyn c s
  | .cor c y t => Sys2Proof.Machine.execCor c y t s
  | .dec c => Sys2Proof.Machine.execDec c s

end Sys2Proof.Machine
end

