-- ==== Sys2Proof/Machine/Step.lean ====
section
/-! DEFINITION. One step: the next transaction the host asked for, as one atomic step (30_encoding.md R25, 70_reset_and_hazards.md R80). -/

namespace Sys2Proof.Machine

/-- Take the next request, decode it, and run the operation; a request that is no operation is rejected by name, and
with no request the machine stays as it is. -/
def step (s : State) : Host.Outcome State Fault Refusal :=
  match fetch s with
  | none => idle s
  | some (r, rest) =>
    match decode r with
    | .ok i => exec i rest
    | .error e => rejectRequest e

/-- The machine with a bare table word as its next request (log entries 2 and 3). -/
def State.withFetchWord (s : State) (nbits w : Nat) : State := s.submit (tableRequest nbits w)

end Sys2Proof.Machine
end

