-- ==== Sys2Proof/Machine/CollectionAdapter.lean ====
section
/-! DEFINITION. The host's reference procedures over the core (43_collection_adapter.md). NOT hardware: `exec` and `step`
call none of them. Each is a sequence of transactions on the core plus the host's comparison and sequencing (R63); FLIP is
`flip` of Ops.lean (R68). -/

namespace Sys2Proof.Machine

/-- What FIND reports (R65). Corrupted is an outcome, not a fault (R70). -/
inductive FindResult where
  | found (index : Nat)
  | notFound
  | corrupted
  deriving DecidableEq, Repr

/-- What a host procedure answers: its result and the machine after its last transaction, or the stop of the
transaction that has no result (R71). -/
abbrev HostOutcome (α : Type) := Host.Outcome (α × State) Fault Refusal

/-- One transaction of a host procedure: run it, then sample (R25). An output that nothing drives has no value (R79). -/
def transact {α : Type} (i : Instr) (sample : State → Option α) (s : State) : HostOutcome α :=
  match exec i s with
  | .next s' =>
    match sample s' with
    | some a => .next (a, s')
    | none => .fault .undrivenInput
  | .fault f => .fault f
  | .refused r => .refused r

/-- What the host's procedures work in: the machine, and the host's mutable ordered sequences (R64), each known by
its number, so that two names for one number share one sequence (log entry 8). -/
structure HostState where
  machine : State
  sequences : List (List Nat)
  deriving DecidableEq, Repr

/-- `values[i]` of a sequence. -/
def HostState.element (h : HostState) (seq i : Nat) : Option Nat := h.sequences[seq]?.bind (fun values => values[i]?)

/-- `values[i] <- v`: the element is replaced in place, in the one copy of the sequence. -/
def HostState.writeElement (h : HostState) (seq i v : Nat) : HostState :=
  { h with sequences := h.sequences.modify seq (fun values => values.set i v) }

/-- The host state after a transaction of the machine. -/
def HostState.withMachine (h : HostState) (s : State) : HostState := { h with machine := s }

/-- One pass of ENCODE_ALL's loop: `values[i] <- ENC_txn(values[i])` (R64, R42). -/
def encodeElement (seq i : Nat) (h : HostState) : Host.Outcome HostState Fault Refusal :=
  match h.element seq i with
  | none => .next h
  | some v =>
    match transact (.enc v) (fun t => t.encoder.cw_o) h.machine with
    | .next (c, s) => .next ((h.withMachine s).writeElement seq i c.toNat)
    | .fault f => .fault f
    | .refused r => .refused r

/-- The passes for the `n` indices from `i` on, in index order. -/
def encodeElements (seq : Nat) : Nat → Nat → HostState → Host.Outcome HostState Fault Refusal
  | 0, _, h => .next h
  | n + 1, i, h =>
    match encodeElement seq i h with
    | .next h' => encodeElements seq n (i + 1) h'
    | .fault f => .fault f
    | .refused r => .refused r

/-- ENCODE_ALL: the sequence is transformed in place and nothing is returned; an element above 2047 faults at that
element, and an empty sequence is left unchanged (R64). -/
def encodeAll (seq : Nat) (h : HostState) : Host.Outcome HostState Fault Refusal :=
  encodeElements seq (h.sequences[seq]?.getD []).length 0 h

/-- What one decoded entry decides for FIND: an uncorrectable entry stops it as corrupted, a match stops it as found
(R65); otherwise nothing is decided. -/
def verdict (key i : Nat) : DecodeOutcome → Option FindResult
  | .uncorrectableError => some .corrupted
  | .recoveredMessage v => if v.val = key then some (.found i) else none

/-- FIND from index `i` on: left to right, stopping at the first entry that is uncorrectable or a match and decoding
none after it (R65, R66). -/
def findFrom (key : Nat) : Nat → List Codeword → State → HostOutcome FindResult
  | _, [], s => .next (.notFound, s)
  | i, c :: cs, s =>
    match transact (.dec c) (fun t => t.corrector.outcome) s with
    | .next (o, s') =>
      match verdict key i o with
      | some r => .next (r, s')
      | none => findFrom key (i + 1) cs s'
    | .fault f => .fault f
    | .refused r => .refused r

/-- FIND; indices count from 0 (R65, 91_not_in_source.md N19). -/
def find (codewords : List Codeword) (key : Nat) (s : State) : HostOutcome FindResult :=
  findFrom key 0 codewords s

/-- The decode outcomes of all entries, each on an instance of the core of its own that starts from the same ports
(R67, R76). -/
def decodeEach : List Codeword → State → Host.Outcome (List DecodeOutcome) Fault Refusal
  | [], _ => .next []
  | c :: cs, s =>
    match transact (.dec c) (fun t => t.corrector.outcome) s, decodeEach cs s with
    | .next (o, _), .next os => .next (o :: os)
    | .fault f, _ => .fault f
    | .refused r, _ => .refused r
    | .next _, .fault f => .fault f
    | .next _, .refused r => .refused r

/-- The first decided entry, in sequential order (R67). -/
def firstVerdict (key : Nat) : Nat → List DecodeOutcome → FindResult
  | _, [] => .notFound
  | i, o :: os =>
    match verdict key i o with
    | some r => r
    | none => firstVerdict key (i + 1) os

/-- FIND with every entry decoded in parallel (R67). -/
def findParallel (codewords : List Codeword) (key : Nat) (s : State) :
    Host.Outcome FindResult Fault Refusal :=
  match decodeEach codewords s with
  | .next os => .next (firstVerdict key 0 os)
  | .fault f => .fault f
  | .refused r => .refused r

end Sys2Proof.Machine
end

