-- ==== Sys2Proof/Machine/Transactions.lean ====
section
/-! DEFINITION. The transaction lines of 30_encoding.md R34: what a host writes, the names it binds to results, and how a
line runs. NOT hardware: the core's lines go through `step`, the host's lines through the procedures of
43_collection_adapter.md, and `step` calls nothing of this file. -/

namespace Sys2Proof.Machine

/-- The result fields a bound name gives (R34): `name.cw` and so on. -/
inductive Field where
  | cw
  | s
  | t
  | msg
  | cwCorr
  | single
  | unc
  deriving DecidableEq, Repr

/-- An operand of a line: a literal, a host value bound to a name, a result field of a name, an element of a sequence
bound to a name, or FLIP of two operands (R34 and the programs of 95_test_vectors.md). Names are numbered. -/
inductive Operand where
  | lit (n : Nat)
  | name (x : Nat)
  | field (x : Nat) (f : Field)
  | elem (x i : Nat)
  | flip (c p : Operand)
  deriving DecidableEq, Repr

/-- A sequence operand: written out, which makes a new sequence, or a name bound to one. -/
inductive ListOperand where
  | items (l : List Operand)
  | name (x : Nat)
  deriving DecidableEq, Repr

/-- One line (R34). The first four are the core's; the others are the host's (R63), and `list` makes a host sequence to name. -/
inductive Line where
  | enc (m : Operand)
  | syn (c : Operand)
  | cor (c s t : Operand)
  | dec (c : Operand)
  | flip (c p : Operand)
  | encodeAll (ms : ListOperand)
  | find (cs : ListOperand) (key : Operand)
  | list (l : ListOperand)
  deriving DecidableEq, Repr

/-- What a line results in, and a name is bound to. A sequence is bound by its number, not by its contents: ENCODE_ALL
changes it in place, whatever names it has (R64). -/
inductive Value where
  | encoded (cw : Codeword)
  | syndrome (s : Syndrome) (t : Bool)
  | corrected (cwCorr : Codeword) (msg : Message) (single unc : Bool)
  | word (c : Codeword)
  | sequence (seq : Nat)
  | search (r : FindResult)
  deriving DecidableEq, Repr

/-- Why a line is no transaction: not a stop of the core. -/
inductive LineError where
  /-- A name that no earlier line has bound. -/
  | unboundName
  /-- A bound name whose result has no such field, value or element. -/
  | noSuchField
  /-- An operand outside the range R34 gives it. -/
  | operandOutOfRange
  /-- The machine ran no operation. -/
  | refused (r : Refusal)
  deriving DecidableEq, Repr

/-- What lines run in: the machine and the host's sequences, and the host's bound names, the latest first. -/
structure Session where
  host : HostState
  bound : List (Nat × Value)
  deriving DecidableEq, Repr

/-- A result field as a number (R34's result notation). -/
def Value.field : Value → Field → Option Nat
  | .encoded c, .cw => some c.toNat
  | .syndrome s _, .s => some s.toNat
  | .syndrome _ t, .t => some t.toNat
  | .corrected c _ _ _, .cwCorr => some c.toNat
  | .corrected _ m _ _, .msg => some m.toNat
  | .corrected _ _ e _, .single => some e.toNat
  | .corrected _ _ _ u, .unc => some u.toNat
  | _, _ => none

/-- A host value as a number. -/
def Value.number : Value → Option Nat
  | .word c => some c.toNat
  | _ => none

/-- The number of a host sequence. -/
def Value.sequenceNumber : Value → Option Nat
  | .sequence seq => some seq
  | _ => none

/-- The value a name is bound to: its latest binding, where it has several (log entry 11). -/
def lookup (x : Nat) (bound : List (Nat × Value)) : Except LineError Value :=
  match bound.lookup x with
  | some v => .ok v
  | none => .error .unboundName

/-- A field that a value may not have. -/
def orNoField {α : Type} : Option α → Except LineError α
  | some a => .ok a
  | none => .error .noSuchField

/-- A number in the range of an operand, as a word of that width (R34). -/
def inRange (w n : Nat) : Except LineError (BitVec w) :=
  if n < 2 ^ w then .ok (BitVec.ofNat w n) else .error .operandOutOfRange

/-- The number an operand stands for. -/
def Operand.resolve (ses : Session) : Operand → Except LineError Nat
  | .lit n => .ok n
  | .name x => (lookup x ses.bound).bind (fun v => orNoField v.number)
  | .field x f => (lookup x ses.bound).bind (fun v => orNoField (v.field f))
  | .elem x i =>
    (lookup x ses.bound).bind (fun v => orNoField (v.sequenceNumber.bind (fun seq => ses.host.element seq i)))
  | .flip c p =>
    ((c.resolve ses).bind (inRange 16)).bind (fun w =>
      ((p.resolve ses).bind (inRange 4)).map (fun q => (Sys2Proof.Machine.flip w q.toFin).toNat))

/-- The numbers a list of operands stands for. -/
def resolveAll (ses : Session) : List Operand → Except LineError (List Nat)
  | [] => .ok []
  | o :: os => (o.resolve ses).bind (fun n => (resolveAll ses os).map (fun ns => n :: ns))

/-- The sequence an operand stands for, and the host with it: a written-out one is made anew. -/
def ListOperand.resolve (ses : Session) : ListOperand → Except LineError (Nat × HostState)
  | .items l =>
    (resolveAll ses l).map (fun ns =>
      (ses.host.sequences.length, { ses.host with sequences := ses.host.sequences ++ [ns] }))
  | .name x => (lookup x ses.bound).bind (fun v => (orNoField v.sequenceNumber).map (fun seq => (seq, ses.host)))

/-- Codewords for a list of numbers. -/
def allInRange (w : Nat) : List Nat → Except LineError (List (BitVec w))
  | [] => .ok []
  | n :: ns => (inRange w n).bind (fun c => (allInRange w ns).map (fun cs => c :: cs))

/-- What a line answers: its result, and the host after it. -/
abbrev LineOutcome := Host.Outcome (Value × HostState) Fault LineError

/-- Continue with a resolved operand, or answer why there is none. -/
def withOperand {α : Type} (e : Except LineError α) (k : α → LineOutcome) : LineOutcome :=
  match e with
  | .ok a => k a
  | .error r => .refused r

/-- A host procedure's outcome as a line's. -/
def ofHost {α : Type} (result : α → Value × HostState) : Host.Outcome α Fault Refusal → LineOutcome
  | .next a => .next (result a)
  | .fault f => .fault f
  | .refused r => .refused (.refused r)

/-- One of the core's lines: the host asks for the operation, the machine steps, and the host samples (R25). -/
def runOperation (i : Instr) (sample : State → Option Value) (h : HostState) : LineOutcome :=
  match step (h.machine.submit (encode i)) with
  | .next s =>
    match sample s with
    | some v => .next (v, h.withMachine s)
    | none => .fault .undrivenInput
  | .fault f => .fault f
  | .refused r => .refused (.refused r)

/-- ENC's result (R34): `cw`. -/
def sampleEncoder (s : State) : Option Value := s.encoder.cw_o.map .encoded

/-- SYN's result (R34): `s` and `t`. -/
def sampleSyndromeDecoder (s : State) : Option Value :=
  match s.syndromeDecoder.syndrome_o, s.syndromeDecoder.parity_odd_o with
  | some y, some t => some (.syndrome y t)
  | _, _ => none

/-- COR's and DEC's result (R34): `cw_corr`, `msg`, `single` and `unc`. -/
def sampleCorrector (s : State) : Option Value :=
  match s.corrector.cw_corr_o, s.corrector.msg_o, s.corrector.single_err_o, s.corrector.uncorrectable_o with
  | some c, some m, some e, some u => some (.corrected c m e u)
  | _, _, _, _ => none

/-- One line on a session: its result, and the host after it (R34). ENCODE_ALL returns nothing; what stands for it here
is the sequence it has changed, so that `A := ENCODE_ALL [...]` names that sequence (95_test_vectors.md P3). -/
def Line.run (ses : Session) : Line → LineOutcome
  | .enc m =>
    withOperand (m.resolve ses) fun v => runOperation (.enc v) sampleEncoder ses.host
  | .syn c =>
    withOperand ((c.resolve ses).bind (inRange 16)) fun w =>
      runOperation (.syn w) sampleSyndromeDecoder ses.host
  | .cor c s t =>
    withOperand ((c.resolve ses).bind (inRange 16)) fun w =>
      withOperand ((s.resolve ses).bind (inRange 4)) fun y =>
        withOperand ((t.resolve ses).bind (inRange 1)) fun p =>
          runOperation (.cor w y (p.getLsbD 0)) sampleCorrector ses.host
  | .dec c =>
    withOperand ((c.resolve ses).bind (inRange 16)) fun w =>
      runOperation (.dec w) sampleCorrector ses.host
  | .flip c p =>
    withOperand ((c.resolve ses).bind (inRange 16)) fun w =>
      withOperand ((p.resolve ses).bind (inRange 4)) fun q =>
        .next (.word (Sys2Proof.Machine.flip w q.toFin), ses.host)
  | .encodeAll ms =>
    withOperand (ms.resolve ses) fun (seq, h) =>
      ofHost (fun h' => (.sequence seq, h')) (Sys2Proof.Machine.encodeAll seq h)
  | .find cs key =>
    withOperand (cs.resolve ses) fun (seq, h) =>
      withOperand (allInRange 16 (h.sequences[seq]?.getD [])) fun ws =>
        withOperand (key.resolve ses) fun k =>
          ofHost (fun (r, s) => (.search r, h.withMachine s)) (Sys2Proof.Machine.find ws k h.machine)
  | .list l =>
    withOperand (l.resolve ses) fun (seq, h) => .next (.sequence seq, h)

/-- A line's result bound to its name, where it has one (R34). R34 does not say what a second `name := <line>` of one name
does; DESIGN CHOICE (log entry 11): later lines read the latest binding, which stands before the earlier ones. -/
def Session.bind (ses : Session) (x : Option Nat) (v : Value) : Session :=
  match x with
  | some n => { ses with bound := (n, v) :: ses.bound }
  | none => ses

/-- `name := <line>`, or a line without a name (R34). -/
def Session.runLine (ses : Session) (x : Option Nat) (l : Line) : Host.Outcome Session Fault LineError :=
  match l.run ses with
  | .next (v, h) => .next ({ ses with host := h }.bind x v)
  | .fault f => .fault f
  | .refused r => .refused r

/-- A sequence of lines (R34). A faulted line ends it: a faulted state is never final (R71). -/
def Session.runAll (ses : Session) : List (Option Nat × Line) → Host.Outcome Session Fault LineError
  | [] => .next ses
  | (x, l) :: rest =>
    match ses.runLine x l with
    | .next ses' => ses'.runAll rest
    | .fault f => .fault f
    | .refused r => .refused r

end Sys2Proof.Machine
end

