-- ==== Sys2Proof/Safety.lean ====
section
/-! DEFINITION. What holds of the ports in every state a step leaves, and what a host must ask for so that a run never
stops. -/

namespace Sys2Proof.Machine

/-- Each output of the encoder is the function of its input, and has no value while the input has none (R14, R79). -/
def EncoderPorts.settled (p : EncoderPorts) : Prop :=
  p = .undriven ∨ ∃ m, p = encoderPorts m

/-- The same for the syndrome decoder (R14, R79). -/
def SyndromeDecoderPorts.settled (p : SyndromeDecoderPorts) : Prop :=
  p = .undriven ∨ ∃ c, p = syndromeDecoderPorts c

/-- The same for the corrector (R14, R79). -/
def CorrectorPorts.settled (p : CorrectorPorts) : Prop :=
  p = .undriven ∨ ∃ c s t, p = correctorPorts c s t

/-- Every output of every block is the function of that block's inputs and of nothing else (R14). -/
def State.settled (s : State) : Prop :=
  s.encoder.settled ∧ s.syndromeDecoder.settled ∧ s.corrector.settled

/-- Where the syndrome decoder and the corrector are driven together, they are wired as DEC wires them (R58, R81). -/
def State.wired (s : State) : Prop :=
  s.syndromeDecoder = .undriven ∨ s.corrector = .undriven ∨
    (s.corrector.cw_i = s.syndromeDecoder.cw_i ∧ s.corrector.syndrome_i = s.syndromeDecoder.syndrome_o ∧
      s.corrector.parity_odd_i = s.syndromeDecoder.parity_odd_o)

/-- The encoder is not driven together with another block: ENC is an operation of its own (R24; log entry 1). -/
def State.oneOperation (s : State) : Prop :=
  s.encoder = .undriven ∨ (s.syndromeDecoder = .undriven ∧ s.corrector = .undriven)

/-- The invariant of the machine. -/
def State.Inv (s : State) : Prop := s.settled ∧ s.wired ∧ s.oneOperation

/-- A request the core runs to a result: every input driven (R82), the word no wider than its ports (R13), ENC's
precondition met (R42). -/
def safeRequest (r : Request) : Prop := ∃ i, decode r = .ok i ∧ i.wellFormed = true

/-- A safe run: everything the host has asked for is safe. -/
def State.safe (s : State) : Prop := ∀ r ∈ s.pending, safeRequest r

/-- A valid codeword: ENC of some message (00_scope.md section 6). -/
def validCodeword (c : Codeword) : Prop := ∃ m, c = encodeMessage m

/-- The corrector's ports with every value written out. -/
def correctorValues (c : Codeword) (y : Syndrome) (t : Bool) (cc : Codeword) (msg : Message)
    (single unc : Bool) : CorrectorPorts :=
  { cw_i := some c, syndrome_i := some y, parity_odd_i := some t, cw_corr_o := some cc, msg_o := some msg,
    single_err_o := some single, uncorrectable_o := some unc }

/-- Two machines agree on every port of the block, or the wired pair, that an operation drives. -/
def samePorts (op : Operation) (t u : State) : Prop :=
  match op with
  | .enc => t.encoder = u.encoder
  | .syn => t.syndromeDecoder = u.syndromeDecoder
  | .cor => t.corrector = u.corrector
  | .dec => t.syndromeDecoder = u.syndromeDecoder ∧ t.corrector = u.corrector

/-- The outcome that DEC of a word carries on the corrector's ports (R56, R58). -/
def decodesTo (c : Codeword) (o : DecodeOutcome) : Prop :=
  ∃ t, exec (.dec c) State.reset = .next t ∧ t.corrector.outcome = some o

/-- An entry FIND goes past: it decodes to a message other than the key (R65). -/
def passes (key : Nat) (c : Codeword) : Prop := ∃ v, decodesTo c (.recoveredMessage v) ∧ v.val ≠ key

end Sys2Proof.Machine
end

