-- ==== Sys2Proof/Certificates/Slice0/Obligations.lean ====
section
/-! DEFINITION. The statements for the provers. Each docstring names the rule of spec/ it formalises. What a
transaction leaves of the other blocks' ports is log entry 1 (DEDUCED); only the statements that name it rest on it. -/

open Sys2Proof Sys2Proof.Machine

/-! ### Words, positions and parities (00_scope.md, 30_encoding.md) -/

/-- R5: position `p` is integer bit `15 - p`, and the bit string read left to right, position 0 first, is the integer. -/
def Obligations.PositionsReadLeftToRight : Prop :=
  ∀ c : Codeword,
    (∀ p : Position, pos c p = c.getLsbD (15 - p.val)) ∧
      c.toNat = allPositions.foldl (fun n p => 2 * n + (pos c p).toNat) 0

/-- R6: a position's role is fixed by whether it is a power of two, and the 11 data positions are those that are
neither 0 nor a power of two, ascending. -/
def Obligations.PositionRolesFollowPowersOfTwo : Prop :=
  dataPositions = allPositions.filter (fun p => p.val ≠ 0 && p.val ≠ 1 && p.val ≠ 2 && p.val ≠ 4 && p.val ≠ 8) ∧
    dataPositions.map Fin.val = [3, 5, 6, 7, 9, 10, 11, 12, 13, 14, 15] ∧
    parityPositions.map Fin.val = [2 ^ 0, 2 ^ 1, 2 ^ 2, 2 ^ 3]

/-- R7 and section 5: `xor_reduce(w)` is 1 exactly when the number of 1 bits of `w` is odd, at every width. -/
def Obligations.XorReduceIsOddPopcount : Prop :=
  ∀ (n : Nat) (w : BitVec n), xorReduce w = decide (popcount w % 2 = 1)

/-- R68: FLIP inverts position `p`, leaves every other position as it is, and undoes itself. -/
def Obligations.FlipInvertsOnePosition : Prop :=
  ∀ (c : Codeword) (p : Position),
    Sys2Proof.Machine.flip c p = c ^^^ (0x8000#16 >>> p.val) ∧
      (∀ q : Position, pos (Sys2Proof.Machine.flip c p) q = if q = p then !pos c q else pos c q) ∧
      Sys2Proof.Machine.flip (Sys2Proof.Machine.flip c p) p = c

/-! ### Requests, decoding and the step -/

/-- Decoding an operation's request gives the operation back, with every operand at every value. -/
def Obligations.DecodeOfEncode : Prop := ∀ i : Instr, decode (encode i) = .ok i

/-- Each request means one operation, and no bit of it is dropped: encoding what was decoded gives the request back. -/
def Obligations.EncodeOfDecode : Prop := ∀ (r : Request) (i : Instr), decode r = .ok i → encode i = r

/-- R33, R24: every value of every operation's input ports is legal: it decodes to a well-formed operation of that
block, and the operation answers a next state from every state. -/
def Obligations.EveryInputValueIsLegal : Prop :=
  ∀ (op : Operation) (w : Nat), w < 2 ^ op.width →
    ∃ i, decode { operation := op, word := w, unknown := 0 } = .ok i ∧ i.operation = op ∧ i.wellFormed = true ∧
      ∀ s, ∃ t, exec i s = .next t

/-- Input words written out from 95_test_vectors.md section 6 and spec/opcode_table.json decode to their operations. -/
def Obligations.WrittenWordsDecode : Prop :=
  decode { operation := .enc, word := 0b00000011111, unknown := 0 } = .ok (.enc 31) ∧
    decode { operation := .syn, word := 0xAB0C, unknown := 0 } = .ok (.syn 0xAB0C#16) ∧
    decode { operation := .cor, word := 0x15618D, unknown := 0 } = .ok (.cor 0xAB0C#16 0b0110#4 true) ∧
    decode { operation := .dec, word := 0x290C, unknown := 0 } = .ok (.dec 0x290C#16)

/-- A step takes the oldest request off the queue (log entry 2, the model's own queue) and runs the operation it decodes
to; nothing else is added. -/
def Obligations.StepRunsDecodedOperation : Prop :=
  ∀ (s : State) (r : Request) (rest : List Request) (i : Instr),
    s.pending = r :: rest → decode r = .ok i → step s = exec i { s with pending := rest }

/-- With no request pending no transaction starts and every port keeps its value (log entry 5, the model's reading of
R14 and R19). -/
def Obligations.StepIdlesWithoutRequest : Prop := ∀ s : State, s.pending = [] → step s = .next s

/-- R82: a transaction with an undriven, floating or unknown input has no result; the model records
`Fault(UndrivenInput)`. The model's own, log entry 6 (DESIGN CHOICE): it does so also where the word is above ENC's range or
too wide for its ports, and a mark above the operation's width counts as an undriven input. The queue is log entry 2. -/
def Obligations.UndrivenInputFaults : Prop :=
  ∀ (s : State) (r : Request) (rest : List Request),
    s.pending = r :: rest → r.unknown ≠ 0 → step s = .fault .undrivenInput

/-- R69, R71: a step stops for these reasons and no others: an undriven input (R82), `ENC v` with `v > 2047` (R42), and an
input word wider than its ports. The model's own, not a rule's: the refusal of a wide word is log entry 4 (DEDUCED), the
next state of a step with nothing pending is log entry 5 (DEDUCED), and that an undriven input is looked at before ENC's
range and before the width, which `exactly when` states in the first three clauses, and that a mark above the operation's
width counts as one, is log entry 6 (DESIGN CHOICE). The queue is log entry 2. -/
def Obligations.StepStopsExactlyWhen : Prop :=
  ∀ s : State,
    (step s = .fault .undrivenInput ↔ ∃ r rest, s.pending = r :: rest ∧ r.unknown ≠ 0) ∧
    (step s = .fault .preconditionViolation ↔
      ∃ r rest, s.pending = r :: rest ∧ r.unknown = 0 ∧ r.operation = .enc ∧ r.word > 2047) ∧
    (∀ f, step s = .refused f ↔
      ∃ r rest, s.pending = r :: rest ∧ r.unknown = 0 ∧ r.operation ≠ .enc ∧ 2 ^ r.operation.width ≤ r.word ∧
        f = .inputTooWide r.operation) ∧
    ((∃ t, step s = .next t) ↔ s.pending = [] ∨ ∃ r rest, s.pending = r :: rest ∧ safeRequest r)

/-! ### ENC (40_encoder.md) -/

/-- R36's closed form: every bit of the codeword from the message, for every message and from every state. -/
def Obligations.EncGivesClosedFormCodeword : Prop :=
  ∀ (m : Message) (s : State), ∃ t c, exec (.enc m.toNat) s = .next t ∧
    t.encoder = { msg_i := some m, cw_o := some c } ∧
    c.getLsbD 12 = m.getLsbD 10 ∧ c.extractLsb' 8 3 = m.extractLsb' 7 3 ∧ c.extractLsb' 0 7 = m.extractLsb' 0 7 ∧
    c.getLsbD 14 = xorReduce (m &&& 0x6D5#11) ∧ c.getLsbD 13 = xorReduce (m &&& 0x5B3#11) ∧
    c.getLsbD 11 = xorReduce (m &&& 0x38F#11) ∧ c.getLsbD 7 = xorReduce (m &&& 0x07F#11) ∧
    c.getLsbD 15 = xorReduce (m &&& 0x769#11)

/-- R37: message bit `m[k]` goes to position `DATA[10-k]`, the other positions are 0 after step 1, and the data
positions of the codeword still hold the message. -/
def Obligations.EncPlacesMessageBits : Prop :=
  ∀ (m : Message) (s : State), ∃ t c, exec (.enc m.toNat) s = .next t ∧
    t.encoder = { msg_i := some m, cw_o := some c } ∧
    (∀ k, k < 11 →
      pos (placeData m) ([3, 5, 6, 7, 9, 10, 11, 12, 13, 14, 15].getD (10 - k) 0) = m.getLsbD k ∧
        pos c ([3, 5, 6, 7, 9, 10, 11, 12, 13, 14, 15].getD (10 - k) 0) = m.getLsbD k) ∧
    ∀ p ∈ ([0, 1, 2, 4, 8] : List Position), pos (placeData m) p = false

/-- R38: group-parity position `2^j` is the `xor_reduce` of the word after step 1 under `MASK_C[j]`. The masks are the
spec's own derivation. -/
def Obligations.EncGroupParityFollowsMasks : Prop :=
  ∀ (m : Message) (s : State), ∃ t c, exec (.enc m.toNat) s = .next t ∧
    t.encoder = { msg_i := some m, cw_o := some c } ∧
    pos c 1 = xorReduce (placeData m &&& 0x1555#16) ∧ pos c 2 = xorReduce (placeData m &&& 0x1333#16) ∧
    pos c 4 = xorReduce (placeData m &&& 0x070F#16) ∧ pos c 8 = xorReduce (placeData m &&& 0x007F#16)

/-- R39: position 0 is the even parity of positions 1 to 15 as steps 1 and 2 left them, and the codeword has an even
number of 1 bits. -/
def Obligations.EncOverallParityMakesPopcountEven : Prop :=
  ∀ (m : Message) (s : State), ∃ t c, exec (.enc m.toNat) s = .next t ∧
    t.encoder = { msg_i := some m, cw_o := some c } ∧
    (∀ p : Position, p ≠ 0 → pos c p = pos (placeGroupParity (placeData m)) p) ∧
    pos c 0 = xorReduce (c.extractLsb' 0 15) ∧ popcount c % 2 = 0

/-- R41: ENC gives a codeword for every 11-bit input, on the one output it has, and raises nothing. -/
def Obligations.EncNeverFails : Prop :=
  ∀ (m : Message) (s : State), ∃ t c, exec (.enc m.toNat) s = .next t ∧
    t.encoder = { msg_i := some m, cw_o := some c }

/-- R42 (decision D9): `ENC v` with `v > 2047` is `Fault(PreconditionViolation)`, with no truncation; otherwise `v` itself
is on `msg_i`. -/
def Obligations.EncAboveRangeFaults : Prop :=
  ∀ (v : Nat) (s : State),
    (v > 2047 → exec (.enc v) s = .fault .preconditionViolation) ∧
      (v ≤ 2047 → ∃ t m c, exec (.enc v) s = .next t ∧ t.encoder = { msg_i := some m, cw_o := some c } ∧ m.toNat = v)

/-- R43: an ENC output has even popcount, syndrome 0 and the message in it; ENC is injective; ENC(0) = 0. -/
def Obligations.EncOutputProperties : Prop :=
  (∀ m : Message, popcount (encodeMessage m) % 2 = 0 ∧ syndrome (encodeMessage m) = 0#4 ∧
    extract (encodeMessage m) = m) ∧
  (∀ m n : Message, encodeMessage m = encodeMessage n → m = n) ∧ encodeMessage 0#11 = 0#16

/-- 95_test_vectors.md section 2: ENC is linear over GF(2). -/
def Obligations.EncIsLinear : Prop :=
  ∀ (a b : Message) (s : State), ∃ ta tb tc ca cb, exec (.enc a.toNat) s = .next ta ∧ ta.encoder.cw_o = some ca ∧
    exec (.enc b.toNat) s = .next tb ∧ tb.encoder.cw_o = some cb ∧
    exec (.enc (a ^^^ b).toNat) s = .next tc ∧ tc.encoder.cw_o = some (ca ^^^ cb)

/-! ### SYN (41_syndrome_decoder.md) -/

/-- R45's table: `s[j]` is the `xor_reduce` of the word under `MASK_S[j]`, for every word and from every state; no mask
holds position 0. The masks are the spec's own derivation. -/
def Obligations.SynFollowsMasks : Prop :=
  ∀ (c : Codeword) (s : State), ∃ t y p, exec (.syn c) s = .next t ∧
    t.syndromeDecoder = { cw_i := some c, syndrome_o := some y, parity_odd_o := some p } ∧
    y.getLsbD 0 = xorReduce (c &&& 0x5555#16) ∧ y.getLsbD 1 = xorReduce (c &&& 0x3333#16) ∧
    y.getLsbD 2 = xorReduce (c &&& 0x0F0F#16) ∧ y.getLsbD 3 = xorReduce (c &&& 0x00FF#16)

/-- R45's definition: read as an integer, the syndrome is the XOR of the positions whose bit is 1. -/
def Obligations.SynXorsSetPositions : Prop :=
  ∀ (c : Codeword) (s : State), ∃ t y p, exec (.syn c) s = .next t ∧
    t.syndromeDecoder = { cw_i := some c, syndrome_o := some y, parity_odd_o := some p } ∧
    y.toNat = ((allPositions.filter (fun p => c.getLsbD (15 - p.val))).map Fin.val).foldr (fun a b => a ^^^ b) 0

/-- R46: `parity_odd_o` is 1 when the number of 1 bits of the word is odd and 0 when it is even. -/
def Obligations.SynParityIsOddCount : Prop :=
  ∀ (c : Codeword) (s : State), ∃ t y, exec (.syn c) s = .next t ∧
    t.syndromeDecoder =
      { cw_i := some c, syndrome_o := some y, parity_odd_o := some (decide (popcount c % 2 = 1)) }

/-- R47: one flipped position `e` of an ENC output gives `(e, 1)`, position 0 included. -/
def Obligations.SynSingleErrorSignature : Prop :=
  ∀ (m : Message) (e : Position) (s : State), ∃ t,
    exec (.syn (Sys2Proof.Machine.flip (encodeMessage m) e)) s = .next t ∧
    t.syndromeDecoder.syndrome_o = some (BitVec.ofNat 4 e.val) ∧ t.syndromeDecoder.parity_odd_o = some true

/-- R48: two flipped positions of an ENC output give `(e1 ^ e2, 0)` with `e1 ^ e2` not 0. -/
def Obligations.SynDoubleErrorSignature : Prop :=
  ∀ (m : Message) (e f : Position) (s : State), e ≠ f → ∃ t,
    exec (.syn (Sys2Proof.Machine.flip (Sys2Proof.Machine.flip (encodeMessage m) e) f)) s = .next t ∧
    t.syndromeDecoder.syndrome_o = some (BitVec.ofNat 4 e.val ^^^ BitVec.ofNat 4 f.val) ∧
    t.syndromeDecoder.parity_odd_o = some false ∧ BitVec.ofNat 4 e.val ^^^ BitVec.ofNat 4 f.val ≠ 0#4

/-- R49: every 16-bit input gives a syndrome and a parity, and SYN has no other output. -/
def Obligations.SynNeverFails : Prop :=
  ∀ (c : Codeword) (s : State), ∃ t y p, exec (.syn c) s = .next t ∧
    t.syndromeDecoder = { cw_i := some c, syndrome_o := some y, parity_odd_o := some p }

/-! ### COR (42_error_corrector.md) -/

/-- R51: syndrome 0 and even parity: the word passes and the message is extracted from it. -/
def Obligations.CorNoErrorRow : Prop :=
  ∀ (c : Codeword) (s : State), ∃ t, exec (.cor c 0#4 false) s = .next t ∧
    t.corrector = correctorValues c 0#4 false c (extract c) false false ∧
    t.corrector.outcome = some (.recoveredMessage (extract c).toFin)

/-- R52 (decision D7): syndrome 0 and odd parity is treated as no error; position 0 is not repaired, so `cw_corr_o` has odd
popcount in this row. That last sentence of R52 needs a premise: the given parity is 1 whatever the word is (R57), and
V-COR-2 gives this row a word of even popcount, which stays even; it holds where the given parity is the word's own. -/
def Obligations.CorDegenerateRow : Prop :=
  ∀ (c : Codeword) (s : State), ∃ t, exec (.cor c 0#4 true) s = .next t ∧
    t.corrector = correctorValues c 0#4 true c (extract c) false false ∧
    t.corrector.outcome = some (.recoveredMessage (extract c).toFin) ∧
    (totalParity c = true → ∃ cc, t.corrector.cw_corr_o = some cc ∧ popcount cc % 2 = 1)

/-- R53: syndrome `y` not 0 and odd parity: position `y`, integer bit `15 - y`, is inverted and the message is extracted
from the corrected word; a parity position changes no message bit, a data position changes the one bit read there. The
last two are the spec's own derivation. -/
def Obligations.CorSingleErrorRow : Prop :=
  ∀ (c : Codeword) (y : Syndrome) (s : State), y ≠ 0#4 →
    ∃ t cc msg, exec (.cor c y true) s = .next t ∧ t.corrector = correctorValues c y true cc msg true false ∧
      (∀ b, b < 16 → cc.getLsbD b = if b = 15 - y.toNat then !c.getLsbD b else c.getLsbD b) ∧
      msg = extract cc ∧
      t.corrector.outcome = some (.recoveredMessage msg.toFin) ∧
      (y.toNat ∈ [1, 2, 4, 8] → msg = extract c) ∧
      (∀ k, k < 11 → y.toNat = [3, 5, 6, 7, 9, 10, 11, 12, 13, 14, 15].getD (10 - k) 0 →
        msg = extract c ^^^ (1#11 <<< k))

/-- R54: syndrome not 0 and even parity: uncorrectable, nothing flipped. The values of `msg_o` and `cw_corr_o` are
decision D6; 93_implementation_defined.md I3 warns that another build may drive others. -/
def Obligations.CorDoubleErrorRow : Prop :=
  ∀ (c : Codeword) (y : Syndrome) (s : State), y ≠ 0#4 → ∃ t, exec (.cor c y false) s = .next t ∧
    t.corrector = correctorValues c y false c 0#11 false true ∧ t.corrector.outcome = some .uncorrectableError

/-- R73: exactly one row applies, the one whose condition on the given syndrome and parity holds. R32, R70: the code
`{uncorrectable_o, single_err_o}` is 00 in rows 1 and 2 alike, 01 in row 3 and 10 in row 4, so it separates the corrected
and the uncorrectable word from the two syndrome-0 rows; 11 never appears. -/
def Obligations.CorCodeSeparatesCorrectedAndUncorrectable : Prop :=
  ∀ (c : Codeword) (y : Syndrome) (p : Bool) (s : State), ∃ t k r, exec (.cor c y p) s = .next t ∧
    t.corrector.cw_corr_o = some (correctedWord c y r) ∧ t.corrector.msg_o = some (recoveredWord c y r) ∧
    (r = .noError ↔ y = 0#4 ∧ p = false) ∧ (r = .degenerate ↔ y = 0#4 ∧ p = true) ∧
    (r = .singleError ↔ y ≠ 0#4 ∧ p = true) ∧ (r = .doubleError ↔ y ≠ 0#4 ∧ p = false) ∧
    t.corrector.code = some k ∧ k ≠ 0b11#2 ∧ (k = 0b00#2 ↔ r = .noError ∨ r = .degenerate) ∧
    (k = 0b01#2 ↔ r = .singleError) ∧ (k = 0b10#2 ↔ r = .doubleError)

/-- R56: the outcome is UncorrectableError exactly when `uncorrectable_o` is 1, and otherwise RecoveredMessage(`msg_o`),
whatever the message. -/
def Obligations.OutcomeFollowsTagAlone : Prop :=
  ∀ (c : Codeword) (y : Syndrome) (p : Bool) (s : State), ∃ t u m o, exec (.cor c y p) s = .next t ∧
    t.corrector.uncorrectable_o = some u ∧ t.corrector.msg_o = some m ∧ t.corrector.outcome = some o ∧
    (u = true → o = .uncorrectableError) ∧ (u = false → o = .recoveredMessage m.toFin)

/-- R57: COR takes its three inputs as they are: what it flips and what it reports depend on the given syndrome and
parity alone, whichever word stands on `cw_i`. -/
def Obligations.CorTrustsItsInputs : Prop :=
  ∀ (c d : Codeword) (y : Syndrome) (p : Bool) (s : State), ∃ t r cc dd mc md e u,
    exec (.cor c y p) s = .next t ∧ t.corrector = correctorValues c y p cc mc e u ∧
    exec (.cor d y p) s = .next r ∧ r.corrector = correctorValues d y p dd md e u ∧
    c ^^^ cc = d ^^^ dd

/-- R55: EXTRACT reads the data positions in ascending order, `m = {c[12], c[10:8], c[6:0]}`, and reads no parity
position. -/
def Obligations.ExtractReadsDataPositions : Prop :=
  ∀ c : Codeword,
    extract c = (c.extractLsb' 12 1 ++ c.extractLsb' 8 3 ++ c.extractLsb' 0 7 : BitVec (1 + 3 + 7)) ∧
    (∀ k, k < 11 → (extract c).getLsbD k = pos c ([3, 5, 6, 7, 9, 10, 11, 12, 13, 14, 15].getD (10 - k) 0)) ∧
    ∀ p ∈ ([0, 1, 2, 4, 8] : List Position), ∀ b, extract (setPos c p b) = extract c

/-- R61: COR and DEC cannot fail: every input gives an outcome. -/
def Obligations.CorAndDecNeverFail : Prop :=
  (∀ (c : Codeword) (y : Syndrome) (p : Bool) (s : State), ∃ t o, exec (.cor c y p) s = .next t ∧
    t.corrector.outcome = some o) ∧
  ∀ (c : Codeword) (s : State), ∃ t o, exec (.dec c) s = .next t ∧ t.corrector.outcome = some o

/-! ### DEC (42_error_corrector.md) -/

/-- R58: DEC is SYN, then COR on the same word with SYN's outputs; its ports are those of the two, wired. -/
def Obligations.DecIsSynThenCor : Prop :=
  ∀ (c : Codeword) (s : State), ∃ a b d y p,
    exec (.syn c) s = .next a ∧ a.syndromeDecoder.syndrome_o = some y ∧ a.syndromeDecoder.parity_odd_o = some p ∧
    exec (.cor c y p) s = .next b ∧
    exec (.dec c) s = .next d ∧ d.syndromeDecoder = a.syndromeDecoder ∧ d.corrector = b.corrector

/-- R59, the SECDED guarantee: for every message, no error, an error at position 0, an error at any other position, and
any two errors. -/
def Obligations.SecdedGuarantee : Prop :=
  ∀ (m : Message) (s : State),
    (∃ t, exec (.dec (encodeMessage m)) s = .next t ∧ t.corrector.outcome = some (.recoveredMessage m.toFin) ∧
      t.corrector.single_err_o = some false ∧ t.corrector.cw_corr_o = some (encodeMessage m)) ∧
    (∃ t, exec (.dec (Sys2Proof.Machine.flip (encodeMessage m) 0)) s = .next t ∧
      t.corrector.outcome = some (.recoveredMessage m.toFin) ∧ t.corrector.single_err_o = some false ∧
      t.corrector.cw_corr_o = some (Sys2Proof.Machine.flip (encodeMessage m) 0)) ∧
    (∀ e : Position, e ≠ 0 → ∃ t, exec (.dec (Sys2Proof.Machine.flip (encodeMessage m) e)) s = .next t ∧
      t.corrector.outcome = some (.recoveredMessage m.toFin) ∧ t.corrector.single_err_o = some true ∧
      t.corrector.cw_corr_o = some (encodeMessage m)) ∧
    (∀ e f : Position, e ≠ f → ∃ t,
      exec (.dec (Sys2Proof.Machine.flip (Sys2Proof.Machine.flip (encodeMessage m) e) f)) s = .next t ∧
      t.corrector.outcome = some .uncorrectableError)

/-- R60: row 1 accepts exactly the valid codewords. -/
def Obligations.NoErrorRowAcceptsExactlyCodewords : Prop :=
  ∀ (c : Codeword) (s : State), ∃ t, exec (.dec c) s = .next t ∧
    ((t.corrector.syndrome_i = some 0#4 ∧ t.corrector.parity_odd_i = some false) ↔ validCodeword c)

/-- R60: whenever DEC flips a bit, what it gives on `cw_corr_o` is a valid codeword, near or far. -/
def Obligations.CorrectionYieldsCodeword : Prop :=
  ∀ (c : Codeword) (s : State), ∃ t cc, exec (.dec c) s = .next t ∧ t.corrector.cw_corr_o = some cc ∧
    (t.corrector.single_err_o = some true → validCodeword cc)

/-- R60: an error pattern of odd weight gives odd parity, so it takes row 2 or 3 and is never flagged uncorrectable; one of
even weight gives even parity, so it takes row 1 or 4 and is never corrected. -/
def Obligations.ErrorWeightParityDecidesRows : Prop :=
  ∀ (m : Message) (e : Codeword) (s : State), ∃ t, exec (.dec (encodeMessage m ^^^ e)) s = .next t ∧
    t.corrector.parity_odd_i = some (decide (popcount e % 2 = 1)) ∧
    (popcount e % 2 = 1 → t.corrector.uncorrectable_o = some false) ∧
    (popcount e % 2 = 0 → t.corrector.single_err_o = some false)

/-- R60's example: ENC(31) with positions 3, 5 and 6 flipped decodes to 1823, and nothing is flagged. -/
def Obligations.TripleErrorCanGoUnnoticed : Prop :=
  ∀ s : State, ∃ t,
    exec (.dec (Sys2Proof.Machine.flip (Sys2Proof.Machine.flip (Sys2Proof.Machine.flip
      (encodeMessage 31#11) 3) 5) 6)) s = .next t ∧
    t.corrector.outcome = some (.recoveredMessage 1823) ∧ t.corrector.single_err_o = some false

/-- R62: decoding a corrected word again gives the same message, with no bit flipped. -/
def Obligations.RedecodingIsStable : Prop :=
  ∀ (c : Codeword) (s : State), ∃ t cc, exec (.dec c) s = .next t ∧ t.corrector.cw_corr_o = some cc ∧
    (t.corrector.uncorrectable_o = some false → ∃ u, exec (.dec cc) s = .next u ∧
      u.corrector.msg_o = t.corrector.msg_o ∧ u.corrector.single_err_o = some false ∧
      u.corrector.uncorrectable_o = some false ∧ u.corrector.cw_corr_o = some cc)

/-! ### The machine (10_state.md, 20_memory.md, 60_exceptions.md, 70_reset_and_hazards.md) -/

/-- R14, R81: from every state that meets it, every step keeps the invariant: each output is the function of its block's
inputs, an input without a value gives outputs without one, a jointly driven decoder and corrector are wired as DEC
wires them. One operation at a time is log entry 1. -/
def Obligations.StepKeepsPortsSettled : Prop := ∀ s t : State, s.Inv → step s = .next t → t.Inv

/-- The machine after reset (its ports are log entry 7) meets the invariant. -/
def Obligations.ResetMeetsInvariant : Prop := State.reset.Inv

/-- After reset no output has a value: R79 says so of the time before the inputs are driven, and that no input is driven
right after power-up is the model's reading, log entry 7 (DEDUCED). R79: the first transaction needs no initialisation; it
gives what it gives from any other state. -/
def Obligations.FirstTransactionNeedsNoBoot : Prop :=
  (State.reset.encoder.cw_o = none ∧ State.reset.syndromeDecoder.syndrome_o = none ∧
    State.reset.syndromeDecoder.parity_odd_o = none ∧ State.reset.corrector.cw_corr_o = none ∧
    State.reset.corrector.msg_o = none ∧ State.reset.corrector.single_err_o = none ∧
    State.reset.corrector.uncorrectable_o = none) ∧
  ∀ (i : Instr) (s : State), i.wellFormed = true → ∃ t u v, step (State.reset.submit (encode i)) = .next t ∧
    step (s.submit (encode i)) = .next u ∧ exec i s = .next v ∧ samePorts i.operation t u ∧ samePorts i.operation u v

/-- The frame of the four operations: the host's queue is as it was, and (log entry 1, the model's reading of R9, R11 and
R24) no port of a block the operation does not drive carries a value. -/
def Obligations.TransactionDrivesOnlyItsPorts : Prop :=
  ∀ (i : Instr) (s t : State), exec i s = .next t → t.pending = s.pending ∧
    (i.operation = .enc → t.syndromeDecoder = .undriven ∧ t.corrector = .undriven) ∧
    (i.operation = .syn → t.encoder = .undriven ∧ t.corrector = .undriven) ∧
    (i.operation = .cor → t.encoder = .undriven ∧ t.syndromeDecoder = .undriven) ∧
    (i.operation = .dec → t.encoder = .undriven)

/-- R14: an operation's ports are the same whatever state it starts from: earlier inputs, other blocks and the queue do
not matter. -/
def Obligations.OutputsDependOnInputsOnly : Prop :=
  ∀ (i : Instr) (s r : State), i.wellFormed = true → ∃ t u, exec i s = .next t ∧ exec i r = .next u ∧
    samePorts i.operation t u

/-- R21: a transaction gives the same result after any transactions before it, in whatever order and on whatever
instance, as on an instance of its own. That the pending requests run oldest first and leave the rest pending is the model's
queue, log entry 2 (DESIGN CHOICE). -/
def Obligations.TransactionOrderDoesNotMatter : Prop :=
  ∀ (before : List Instr) (i : Instr) (after : List Request) (s : State),
    (∀ j ∈ before, j.wellFormed = true) → i.wellFormed = true →
    s.pending = before.map encode ++ encode i :: after →
    ∃ t u, Sys2Proof.core.run (before.length + 1) s = .next t ∧ exec i State.reset = .next u ∧
      samePorts i.operation t u ∧ t.pending = after

/-- R69, R71, R82: a host that drives every input, keeps to the port widths and keeps ENC's precondition never stops the
machine: after `k` steps its first `k` requests have run. That they leave the queue oldest first is log entry 2 (DESIGN
CHOICE), and that a run longer than the queue idles is log entry 5 (DEDUCED). -/
def Obligations.SafeRunsNeverStop : Prop :=
  ∀ (s : State) (k : Nat), s.safe → ∃ t, Sys2Proof.core.run k s = .next t ∧ t.pending = s.pending.drop k

/-! ### The host's procedures and lines (43_collection_adapter.md, 30_encoding.md R34, R35) -/

/-- R64: ENCODE_ALL replaces every element of its sequence by the element's ENC, in place, and changes no other sequence;
it faults when an element is above 2047. -/
def Obligations.EncodeAllEncodesEachElement : Prop :=
  ∀ (h : HostState) (seq : Nat) (values : List Nat), h.sequences[seq]? = some values →
    ((∀ v ∈ values, v ≤ 2047) → ∃ h', encodeAll seq h = .next h' ∧
      h'.sequences = h.sequences.set seq (values.map (fun v => (encodeMessage (BitVec.ofNat 11 v)).toNat)) ∧
      h'.machine.pending = h.machine.pending) ∧
    ((∃ v ∈ values, v > 2047) → encodeAll seq h = .fault .preconditionViolation)

/-- R64 in the lines of R34: ENCODE_ALL of a named sequence changes the sequence under that name, so a later line that reads
the name reads the codewords; a line without a name binds nothing. -/
def Obligations.EncodeAllLineChangesNamedSequence : Prop :=
  ∀ (ses : Session) (x seq i v : Nat) (values : List Nat), lookup x ses.bound = .ok (.sequence seq) →
    ses.host.sequences[seq]? = some values → (∀ w ∈ values, w ≤ 2047) → values[i]? = some v →
    ∃ b, ses.runLine none (.encodeAll (.name x)) = .next b ∧ b.bound = ses.bound ∧
      (Operand.elem x i).resolve b = .ok (encodeMessage (BitVec.ofNat 11 v)).toNat

/-- R65, R66: FIND reports the first entry that decides: Found at the first match with only other messages before it,
Corrupted at the first uncorrectable entry with no match before it, NotFound when every entry passes. -/
def Obligations.FindReportsFirstDecidingEntry : Prop :=
  ∀ (cs : List Codeword) (key : Nat) (s : State), ∃ r t, find cs key s = .next (r, t) ∧ t.pending = s.pending ∧
    (∀ k, r = .found k ↔ ∃ (h : k < cs.length) (v : Fin 2048), decodesTo cs[k] (.recoveredMessage v) ∧
      v.val = key ∧ ∀ c ∈ cs.take k, passes key c) ∧
    (r = .corrupted ↔ ∃ (k : Nat) (h : k < cs.length), decodesTo cs[k] .uncorrectableError ∧
      ∀ c ∈ cs.take k, passes key c) ∧
    (r = .notFound ↔ ∀ c ∈ cs, passes key c)

/-- R67: decoding the entries in parallel and keeping the sequential order of verdicts gives what FIND gives. -/
def Obligations.ParallelFindAgreesWithFind : Prop :=
  ∀ (cs : List Codeword) (key : Nat) (s : State), ∃ r t, find cs key s = .next (r, t) ∧
    findParallel cs key s = .next r

/-- R35: `x := DEC n` binds what `y := SYN n` followed by `x := COR n, y.s, y.t` binds, and leaves the same values on the
corrector's ports. That a name bound before, or `x` and `y` as one name, is read as its latest binding is log entry 11
(DESIGN CHOICE). -/
def Obligations.DecLineExpandsToSynAndCor : Prop :=
  ∀ (ses : Session) (x y n : Nat), n < 65536 →
    ∃ a b v, ses.runAll [(some x, .dec (.lit n))] = .next a ∧
      ses.runAll [(some y, .syn (.lit n)), (some x, .cor (.lit n) (.field y .s) (.field y .t))] = .next b ∧
      lookup x a.bound = .ok v ∧ lookup x b.bound = .ok v ∧
      a.host.machine.corrector = b.host.machine.corrector ∧ a.host.sequences = b.host.sequences ∧
      a.host.machine.pending = ses.host.machine.pending ∧ b.host.machine.pending = ses.host.machine.pending
end

