-- ==== Sys2Proof/Config.lean ====
section
/-! DEFINITION. What an implementation fixes. R4 leaves one parameter open, the settling time; there is no free value. -/

namespace Sys2Proof

/-- `T_SETTLE`, the settling time of R80: an OPEN parameter of the implementation (R4, R83, decision D14).
It has no body, so nothing can be proved of its value; no rule depends on it and no definition of the model reads it. -/
opaque Config.tSettle : Nat

end Sys2Proof
end

