-- ==== Sys2Proof/Laws/Ops.lean ====
section
/-! SUPPORT. The position primitives of 00_scope.md section 5: what each reads and writes, position by position. -/

namespace Sys2Proof.Machine

/-- Only position `p` of `positionBit p` is 1. -/
@[simp] theorem pos_positionBit (p q : Position) : pos (positionBit p) q = decide (p = q) := by
  revert p q; decide

@[simp] theorem pos_zero (p : Position) : pos 0#16 p = false := by simp [pos]

@[simp] theorem pos_xor (a b : Codeword) (p : Position) : pos (a ^^^ b) p = (pos a p ^^ pos b p) := by
  simp [pos]

@[simp] theorem pos_and (a b : Codeword) (p : Position) : pos (a &&& b) p = (pos a p && pos b p) := by
  simp [pos]

@[simp] theorem pos_or (a b : Codeword) (p : Position) : pos (a ||| b) p = (pos a p || pos b p) := by
  simp [pos]

@[simp] theorem pos_not (a : Codeword) (p : Position) : pos (~~~a) p = !pos a p := by
  have h : 15 - p.val < 16 := by omega
  simp [pos, h]

/-- A write of one position reads back there and leaves every other position alone. -/
@[simp] theorem pos_setPos (c : Codeword) (p q : Position) (b : Bool) :
    pos (setPos c p b) q = if p = q then b else pos c q := by
  cases b <;> by_cases h : p = q <;> simp [setPos, h]

/-- Two codewords that agree at every position are equal (R5 numbers every bit). -/
theorem codeword_ext (a b : Codeword) (h : ∀ p, pos a p = pos b p) : a = b := by
  refine BitVec.eq_of_getLsbD_eq fun i hi => ?_
  have := h ⟨15 - i, by omega⟩
  have e : 15 - (15 - i) = i := by omega
  simpa [pos, e] using this

@[simp] theorem xorAll_nil : xorAll [] = false := rfl

theorem xorAll_foldl (b : Bool) (l : List Bool) : l.foldl (fun acc x => acc ^^ x) b = (b ^^ xorAll l) := by
  induction l generalizing b with
  | nil => simp
  | cons x l ih =>
    have head : xorAll (x :: l) = (x ^^ xorAll l) := (ih (false ^^ x)).trans (by simp)
    rw [List.foldl_cons, ih, head, Bool.xor_assoc]

@[simp] theorem xorAll_cons (b : Bool) (l : List Bool) : xorAll (b :: l) = (b ^^ xorAll l) := by
  exact (xorAll_foldl (false ^^ b) l).trans (by simp)

@[simp] theorem xorAll_append (l k : List Bool) : xorAll (l ++ k) = (xorAll l ^^ xorAll k) := by
  induction l with
  | nil => simp
  | cons b l ih => simp [ih]

/-- The XOR of bitwise sums is the sum of the XORs. -/
theorem xorAll_map_xor {α : Type} (l : List α) (f g : α → Bool) :
    xorAll (l.map fun a => f a ^^ g a) = (xorAll (l.map f) ^^ xorAll (l.map g)) := by
  induction l with
  | nil => rfl
  | cons a l ih => simp only [List.map_cons, xorAll_cons, ih]; cases f a <;> cases g a <;> simp

/-- `xor_reduce` of a XOR of words is the XOR of their `xor_reduce`s. -/
theorem xorReduce_xor {n : Nat} (a b : BitVec n) : xorReduce (a ^^^ b) = (xorReduce a ^^ xorReduce b) := by
  simp only [xorReduce, BitVec.getLsbD_xor, xorAll_map_xor]

end Sys2Proof.Machine
end

