-- ==== Sys2Proof/Laws/Codec.lean ====
section
/-! SUPPORT. The computations of the codec are XORs of bits (00_scope.md section 5): the lemmas that carry a flipped bit
through the syndrome and the parity. -/

namespace Sys2Proof.Machine

/-- The syndrome's loop over a list of positions, as a XOR with the value it starts from. -/
theorem syndromeFold_start (c : Codeword) (l : List Position) (a : Syndrome) :
    l.foldl (fun s i => if pos c i then s ^^^ BitVec.ofFin i else s) a =
      a ^^^ l.foldl (fun s i => if pos c i then s ^^^ BitVec.ofFin i else s) 0#4 := by
  induction l generalizing a with
  | nil => simp
  | cons i l ih =>
    simp only [List.foldl_cons]
    cases pos c i
    · simpa using ih a
    · exact (ih _).trans ((BitVec.xor_assoc _ _ _).trans
        (congrArg (a ^^^ ·) ((congrArg (· ^^^ _) BitVec.zero_xor.symm).trans (ih _).symm)))

theorem xor_xor_cancel_middle (i x y : Syndrome) : i ^^^ x ^^^ (i ^^^ y) = x ^^^ y := by
  rw [BitVec.xor_comm i x, BitVec.xor_assoc, ← BitVec.xor_assoc i i y, BitVec.xor_self, BitVec.zero_xor]

/-- The syndrome's loop of a XOR of words. -/
theorem syndromeFold_xor (a b : Codeword) (l : List Position) :
    l.foldl (fun s i => if pos (a ^^^ b) i then s ^^^ BitVec.ofFin i else s) 0#4 =
      l.foldl (fun s i => if pos a i then s ^^^ BitVec.ofFin i else s) 0#4 ^^^
        l.foldl (fun s i => if pos b i then s ^^^ BitVec.ofFin i else s) 0#4 := by
  induction l with
  | nil => simp
  | cons i l ih =>
    simp only [List.foldl_cons]
    rw [syndromeFold_start (a ^^^ b), syndromeFold_start a, syndromeFold_start b, ih, pos_xor]
    cases pos a i <;> cases pos b i
    · simp
    · simp only [Bool.false_xor, if_true, if_false, Bool.false_eq_true]; ac_rfl
    · simp only [Bool.xor_false, if_true, if_false, Bool.false_eq_true]; ac_rfl
    · simp [xor_xor_cancel_middle]

/-- The syndrome of a XOR of words is the XOR of their syndromes. -/
theorem syndrome_xor (a b : Codeword) : syndrome (a ^^^ b) = syndrome a ^^^ syndrome b :=
  syndromeFold_xor a b allPositions

/-- The total parity of a XOR of words is the XOR of their total parities. -/
theorem totalParity_xor (a b : Codeword) : totalParity (a ^^^ b) = (totalParity a ^^ totalParity b) :=
  xorReduce_xor a b

/-- The word in which only position `p` is 1 has syndrome `p` (R44's corner cases). -/
@[simp] theorem syndrome_positionBit (p : Position) : syndrome (positionBit p) = BitVec.ofFin p := by
  revert p; decide

/-- The word in which only position `p` is 1 has odd parity (R44's corner cases). -/
@[simp] theorem totalParity_positionBit (p : Position) : totalParity (positionBit p) = true := by
  revert p; decide

end Sys2Proof.Machine
end

