-- ==== Sys2Proof/Laws/Decode.lean ====
section
/-! SUPPORT. The decoder and the encoder of requests. -/

namespace Sys2Proof

/-- ENC's word is never too wide; every other operation's fits when it has no bit above its row's width. -/
theorem Request.fits_iff (r : Request) :
    r.fits = true ↔ r.operation = .enc ∨ r.word < 2 ^ r.operation.width := by
  simp [Request.fits]

/-- All that `decode` can answer. -/
theorem decode_cases (r : Request) :
    (r.unknown ≠ 0 ∧ decode r = .error .inputUndriven) ∨
      (r.unknown = 0 ∧ r.fits = true ∧ decode r = .ok (decodeWord r.operation r.word)) ∨
      (r.unknown = 0 ∧ r.fits = false ∧ decode r = .error (.wordTooWide r.operation)) := by
  by_cases h : r.unknown = 0
  · cases hf : r.fits <;> simp [decode, h, hf]
  · simp [decode, h]

@[simp] theorem encode_unknown (i : Instr) : (encode i).unknown = 0 := rfl
@[simp] theorem encode_operation (i : Instr) : (encode i).operation = i.operation := rfl
@[simp] theorem encode_word (i : Instr) : (encode i).word = i.inputWord := rfl

/-- R31's layout, bit by bit: `x[0]` is the parity, `x[4:1]` the syndrome, `x[20:5]` the codeword. -/
theorem corWord_getLsbD (c : Codeword) (s : Syndrome) (t : Bool) (i : Nat) :
    (corWord c s t).getLsbD i =
      if i < 1 then (BitVec.ofBool t).getLsbD i else if i - 1 < 4 then s.getLsbD (i - 1) else c.getLsbD (i - 1 - 4) := by
  have outer := BitVec.getLsbD_append (x := c ++ s) (y := BitVec.ofBool t) (i := i)
  have inner := BitVec.getLsbD_append (x := c) (y := s) (i := i - 1)
  exact outer.trans (by rw [inner])

@[simp] theorem corCodewordField_corWord (c : Codeword) (s : Syndrome) (t : Bool) :
    corCodewordField (corWord c s t) = c := by
  refine BitVec.eq_of_getLsbD_eq fun i hi => ?_
  have h1 : ¬ 5 + i < 1 := by omega
  have h2 : ¬ 5 + i - 1 < 4 := by omega
  have h3 : 5 + i - 1 - 4 = i := by omega
  rw [corCodewordField, BitVec.getLsbD_extractLsb', corWord_getLsbD, if_neg h1, if_neg h2, h3]
  simp [hi]

@[simp] theorem corSyndromeField_corWord (c : Codeword) (s : Syndrome) (t : Bool) :
    corSyndromeField (corWord c s t) = s := by
  refine BitVec.eq_of_getLsbD_eq fun i hi => ?_
  have h1 : ¬ 1 + i < 1 := by omega
  have h2 : 1 + i - 1 = i := by omega
  rw [corSyndromeField, BitVec.getLsbD_extractLsb', corWord_getLsbD, if_neg h1, h2, if_pos hi]
  simp [hi]

@[simp] theorem corParityField_corWord (c : Codeword) (s : Syndrome) (t : Bool) :
    corParityField (corWord c s t) = t := by
  rw [corParityField, corWord_getLsbD, if_pos Nat.one_pos]
  cases t <;> rfl

end Sys2Proof
end

