-- ==== Sys2Proof/Laws/State.lean ====
section
/-! SUPPORT. One lemma per field per update of State. -/

namespace Sys2Proof.Machine

section Release
variable (s : State)

@[simp] theorem State.releasePorts_encoder : s.releasePorts.encoder = .undriven := rfl
@[simp] theorem State.releasePorts_syndromeDecoder : s.releasePorts.syndromeDecoder = .undriven := rfl
@[simp] theorem State.releasePorts_corrector : s.releasePorts.corrector = .undriven := rfl
@[simp] theorem State.releasePorts_pending : s.releasePorts.pending = s.pending := rfl

end Release

section Drive
variable (s : State) (p : EncoderPorts) (q : SyndromeDecoderPorts) (r : CorrectorPorts)

@[simp] theorem State.driveEncoder_encoder : (s.driveEncoder p).encoder = p := rfl
@[simp] theorem State.driveEncoder_syndromeDecoder : (s.driveEncoder p).syndromeDecoder = .undriven := rfl
@[simp] theorem State.driveEncoder_corrector : (s.driveEncoder p).corrector = .undriven := rfl
@[simp] theorem State.driveEncoder_pending : (s.driveEncoder p).pending = s.pending := rfl

@[simp] theorem State.driveSyndromeDecoder_encoder : (s.driveSyndromeDecoder q).encoder = .undriven := rfl
@[simp] theorem State.driveSyndromeDecoder_syndromeDecoder :
    (s.driveSyndromeDecoder q).syndromeDecoder = q := rfl
@[simp] theorem State.driveSyndromeDecoder_corrector : (s.driveSyndromeDecoder q).corrector = .undriven := rfl
@[simp] theorem State.driveSyndromeDecoder_pending : (s.driveSyndromeDecoder q).pending = s.pending := rfl

@[simp] theorem State.driveCorrector_encoder : (s.driveCorrector r).encoder = .undriven := rfl
@[simp] theorem State.driveCorrector_syndromeDecoder : (s.driveCorrector r).syndromeDecoder = .undriven := rfl
@[simp] theorem State.driveCorrector_corrector : (s.driveCorrector r).corrector = r := rfl
@[simp] theorem State.driveCorrector_pending : (s.driveCorrector r).pending = s.pending := rfl

@[simp] theorem State.driveWired_encoder : (s.driveWired q r).encoder = .undriven := rfl
@[simp] theorem State.driveWired_syndromeDecoder : (s.driveWired q r).syndromeDecoder = q := rfl
@[simp] theorem State.driveWired_corrector : (s.driveWired q r).corrector = r := rfl
@[simp] theorem State.driveWired_pending : (s.driveWired q r).pending = s.pending := rfl

end Drive

section Queue
variable (s : State) (r : Request)

@[simp] theorem State.submit_encoder : (s.submit r).encoder = s.encoder := rfl
@[simp] theorem State.submit_syndromeDecoder : (s.submit r).syndromeDecoder = s.syndromeDecoder := rfl
@[simp] theorem State.submit_corrector : (s.submit r).corrector = s.corrector := rfl
@[simp] theorem State.submit_pending : (s.submit r).pending = r :: s.pending := rfl

@[simp] theorem fetch_submit : fetch (s.submit r) = some (r, s) := rfl

end Queue

/-- All that `fetch` can answer. -/
theorem fetch_cases (s : State) :
    (s.pending = [] ∧ fetch s = none) ∨
      ∃ r rest, s.pending = r :: rest ∧ fetch s = some (r, { s with pending := rest }) := by
  cases h : s.pending with
  | nil => exact .inl ⟨rfl, by simp [fetch, h]⟩
  | cons r rest => exact .inr ⟨r, rest, rfl, by simp [fetch, h]⟩

end Sys2Proof.Machine
end

