-- ==== Sys2Proof/Laws/Exec.lean ====
section
/-! SUPPORT. What each operation, and one step, can do: callers cite these and unfold nothing. -/

namespace Sys2Proof.Machine

theorem messageOperand_above {v : Nat} (h : 2047 < v) : messageOperand v = .error .preconditionViolation := by
  simp [messageOperand, h]

theorem messageOperand_within {v : Nat} (h : v ≤ 2047) : messageOperand v = .ok (BitVec.ofNat 11 v) := by
  simp [messageOperand, h]

@[simp] theorem exec_enc_above {v : Nat} (h : 2047 < v) (s : State) :
    exec (.enc v) s = .fault .preconditionViolation := by
  simp [exec, execEnc, messageOperand_above h, raise]

@[simp] theorem exec_enc_within {v : Nat} (h : v ≤ 2047) (s : State) :
    exec (.enc v) s = .next (s.driveEncoder (encoderPorts (BitVec.ofNat 11 v))) := by
  simp [exec, execEnc, messageOperand_within h]

@[simp] theorem exec_syn (c : Codeword) (s : State) :
    exec (.syn c) s = .next (s.driveSyndromeDecoder (syndromeDecoderPorts c)) := rfl

@[simp] theorem exec_cor (c : Codeword) (y : Syndrome) (t : Bool) (s : State) :
    exec (.cor c y t) s = .next (s.driveCorrector (correctorPorts c y t)) := rfl

@[simp] theorem exec_dec (c : Codeword) (s : State) :
    exec (.dec c) s =
      .next (s.driveWired (syndromeDecoderPorts c) (correctorPorts c (syndrome c) (totalParity c))) := rfl

/-- All that `exec` can do when it answers a next state. -/
theorem exec_next_cases {i : Instr} {s t : State} (h : exec i s = .next t) :
    (∃ v, i = .enc v ∧ v ≤ 2047 ∧ t = s.driveEncoder (encoderPorts (BitVec.ofNat 11 v))) ∨
      (∃ c, i = .syn c ∧ t = s.driveSyndromeDecoder (syndromeDecoderPorts c)) ∨
      (∃ c y p, i = .cor c y p ∧ t = s.driveCorrector (correctorPorts c y p)) ∨
      (∃ c, i = .dec c ∧
        t = s.driveWired (syndromeDecoderPorts c) (correctorPorts c (syndrome c) (totalParity c))) := by
  cases i with
  | enc v =>
    by_cases hv : v ≤ 2047
    · rw [exec_enc_within hv] at h
      injection h with h
      exact .inl ⟨v, rfl, hv, h.symm⟩
    · rw [exec_enc_above (by omega)] at h
      cases h
  | syn c => injection h with h; exact .inr (.inl ⟨c, rfl, h.symm⟩)
  | cor c y p => injection h with h; exact .inr (.inr (.inl ⟨c, y, p, rfl, h.symm⟩))
  | dec c => injection h with h; exact .inr (.inr (.inr ⟨c, rfl, h.symm⟩))

/-- All that `step` can do. -/
theorem step_cases (s : State) :
    (s.pending = [] ∧ step s = .next s) ∨
      (∃ r rest i, s.pending = r :: rest ∧ decode r = .ok i ∧ step s = exec i { s with pending := rest }) ∨
      (∃ r rest e, s.pending = r :: rest ∧ decode r = .error e ∧ step s = rejectRequest e) := by
  obtain ⟨hp, hf⟩ | ⟨r, rest, hp, hf⟩ := fetch_cases s
  · exact .inl ⟨hp, by simp [step, hf, idle]⟩
  · cases hd : decode r with
    | ok i => exact .inr (.inl ⟨r, rest, i, hp, hd, by simp [step, hf, hd]⟩)
    | error e => exact .inr (.inr ⟨r, rest, e, hp, hd, by simp [step, hf, hd]⟩)

/-- A rejected request never gives a next state. -/
theorem rejectRequest_ne_next (e : DecodeError) (t : State) : rejectRequest e ≠ .next t := by
  cases e <;> simp [rejectRequest, raise]

@[simp] theorem core_step : Sys2Proof.core.step = step := rfl
@[simp] theorem core_reset : Sys2Proof.core.reset = State.reset := rfl

end Sys2Proof.Machine
end

