-- ==== Sys2Proof/Laws/CollectionAdapter.lean ====
section
/-! SUPPORT. The host's state, field by field and update by update, and what one transaction and one loop pass of a host
procedure can do. -/

namespace Sys2Proof.Machine

section HostStateUpdates
variable (h : HostState) (s : State) (seq i v : Nat)

@[simp] theorem HostState.withMachine_machine : (h.withMachine s).machine = s := rfl
@[simp] theorem HostState.withMachine_sequences : (h.withMachine s).sequences = h.sequences := rfl
@[simp] theorem HostState.withMachine_element : (h.withMachine s).element seq i = h.element seq i := rfl
@[simp] theorem HostState.writeElement_machine : (h.writeElement seq i v).machine = h.machine := rfl
@[simp] theorem HostState.writeElement_sequences :
    (h.writeElement seq i v).sequences = h.sequences.modify seq (fun values => values.set i v) := rfl

end HostStateUpdates

/-- In a sequence that exists, `element` is the list's own. -/
theorem HostState.element_eq {h : HostState} {seq : Nat} {values : List Nat} (hs : h.sequences[seq]? = some values)
    (i : Nat) : h.element seq i = values[i]? := by
  simp [HostState.element, hs]

/-- A write replaces one element of one sequence. -/
theorem HostState.writeElement_eq {h : HostState} {seq : Nat} {values : List Nat}
    (hs : h.sequences[seq]? = some values) (i v : Nat) :
    (h.writeElement seq i v).sequences = h.sequences.set seq (values.set i v) := by
  refine List.ext_getElem? fun n => ?_
  rw [writeElement_sequences, List.getElem?_modify, List.getElem?_set]
  by_cases hn : seq = n
  · subst hn
    obtain ⟨hlt, hv⟩ := List.getElem?_eq_some_iff.1 hs
    simp [hlt, hv]
  · simp [hn]

/-- ENC of a message, as a host samples it. -/
theorem transact_enc_within {v : Nat} (hv : v ≤ 2047) (s : State) :
    transact (.enc v) (fun t => t.encoder.cw_o) s =
      .next (encodeMessage (BitVec.ofNat 11 v), s.driveEncoder (encoderPorts (BitVec.ofNat 11 v))) := by
  simp [transact, exec_enc_within hv, encoderPorts]

/-- ENC of a value above 2047 has no result to sample. -/
theorem transact_enc_above {v : Nat} (hv : 2047 < v) (s : State) :
    transact (.enc v) (fun t => t.encoder.cw_o) s = .fault .preconditionViolation := by
  simp [transact, exec_enc_above hv]

/-- All that one pass of ENCODE_ALL's loop can do. -/
theorem encodeElement_cases (seq i : Nat) (h : HostState) :
    (h.element seq i = none ∧ encodeElement seq i h = .next h) ∨
      (∃ v, h.element seq i = some v ∧ v ≤ 2047 ∧ encodeElement seq i h =
        .next ((h.withMachine (h.machine.driveEncoder (encoderPorts (BitVec.ofNat 11 v)))).writeElement seq i
          (encodeMessage (BitVec.ofNat 11 v)).toNat)) ∨
      (∃ v, h.element seq i = some v ∧ 2047 < v ∧ encodeElement seq i h = .fault .preconditionViolation) := by
  cases he : h.element seq i with
  | none => exact .inl ⟨rfl, by simp [encodeElement, he]⟩
  | some v =>
    by_cases hv : v ≤ 2047
    · exact .inr (.inl ⟨v, rfl, hv, by simp [encodeElement, he, transact_enc_within hv]⟩)
    · exact .inr (.inr ⟨v, rfl, by omega, by simp [encodeElement, he, transact_enc_above (show 2047 < v by omega)]⟩)

end Sys2Proof.Machine
end

