-- ==== Sys2Proof/Laws/Flags.lean ====
section
/-! SUPPORT. The four rows of R50's decision table and the status each gives. -/

namespace Sys2Proof.Machine

@[simp] theorem row_zero_even : row 0#4 false = .noError := rfl
@[simp] theorem row_zero_odd : row 0#4 true = .degenerate := rfl

@[simp] theorem row_nonzero_odd {s : Syndrome} (h : s ≠ 0#4) : row s true = .singleError := by simp [row, h]

@[simp] theorem row_nonzero_even {s : Syndrome} (h : s ≠ 0#4) : row s false = .doubleError := by simp [row, h]

/-- The rows partition the values of (syndrome, parity). -/
theorem row_cases (s : Syndrome) (t : Bool) :
    (row s t = .noError ∧ s = 0#4 ∧ t = false) ∨ (row s t = .degenerate ∧ s = 0#4 ∧ t = true) ∨
      (row s t = .singleError ∧ s ≠ 0#4 ∧ t = true) ∨ (row s t = .doubleError ∧ s ≠ 0#4 ∧ t = false) := by
  by_cases h : s = 0#4
  · subst h; cases t <;> simp
  · cases t <;> simp [h]

/-- The ports the corrector drives carry an outcome. -/
@[simp] theorem correctorPorts_outcome (c : Codeword) (s : Syndrome) (t : Bool) :
    (correctorPorts c s t).outcome = some (outcomeOf (uncorrectable (row s t)) (recoveredWord c s (row s t))) := rfl

@[simp] theorem undriven_outcome : CorrectorPorts.undriven.outcome = none := rfl

end Sys2Proof.Machine
end

