-- ==== Sys2Proof/Laws/PerInstr.lean ====
section
/-! SUPPORT. A statement for every operation, one lemma per constructor. -/

namespace Sys2Proof.Laws.WordFits

/-- The input word of a well-formed operation has no bit above the width of its row in spec/opcode_table.json. -/
def Statement (i : Instr) : Prop :=
  i.wellFormed = true → (encode i).word < 2 ^ (encode i).operation.width

theorem enc (v : Nat) : Statement (.enc v) := by
  intro h
  have h' : v ≤ 2047 := by simpa [Instr.wellFormed] using h
  show v < 2 ^ 11
  omega

theorem syn (c : Codeword) : Statement (.syn c) := fun _ => c.isLt

theorem cor (c : Codeword) (s : Syndrome) (t : Bool) : Statement (.cor c s t) := fun _ => (corWord c s t).isLt

theorem dec (c : Codeword) : Statement (.dec c) := fun _ => c.isLt

end Sys2Proof.Laws.WordFits
end

