-- ==== Sys2Proof/Tests/Slice0.lean ====
section
/-! SUPPORT. Tests: the expected values are the source's examples and the derived vectors of 95_test_vectors.md, named by
their ids. Then the witnesses: for each statement with hypotheses, values that meet them all together. -/

namespace Sys2Proof.Tests.Slice0

open Sys2Proof.Machine

/-- A machine after reset with one pending request. -/
def asking (op : Operation) (word unknown : Nat) : State :=
  State.reset.submit { operation := op, word := word, unknown := unknown }

/-- The values that one step leaves, seen through `f`; `none` where the step stops. -/
def after {α : Type} (f : State → α) (s : State) : Option α :=
  match step s with
  | .next t => some (f t)
  | .fault _ => none
  | .refused _ => none

/-- The fault that one step stops with. -/
def faultOf (s : State) : Option Fault :=
  match step s with
  | .next _ => none
  | .fault r => some r
  | .refused _ => none

/-- The refusal that one step stops with. -/
def refusalOf (s : State) : Option Refusal :=
  match step s with
  | .next _ => none
  | .fault _ => none
  | .refused r => some r

/-! ### Well-formedness: each check refuses an ill-formed term -/

/-- R42: 2048 is no message. -/
theorem test_wellFormed_refuses_enc_2048 : (Instr.enc 2048).wellFormed = false := by decide

/-- R26: 2047 is the greatest message. -/
theorem test_wellFormed_accepts_enc_2047 : (Instr.enc 2047).wellFormed = true := by decide

/-! ### Decoding: input words written out from spec/opcode_table.json and 95_test_vectors.md section 6 -/

/-- Program P1: `msg_i = 0b000_0001_1111` is `ENC 31`. -/
theorem test_decode_enc_31 :
    decode { operation := .enc, word := 0b00000011111, unknown := 0 } = .ok (.enc 31) := by decide

/-- Program P1: `cw_i = 0x609F` is `SYN 0x609F`. -/
theorem test_decode_syn :
    decode { operation := .syn, word := 0b0110000010011111, unknown := 0 } = .ok (.syn 0x609F#16) := by decide

/-- Program P2: `x = 0x15618D` is `COR 0xAB0C, 6, 1` (codeword in 20..5, syndrome in 4..1, parity in 0). -/
theorem test_decode_cor :
    decode { operation := .cor, word := 0b101010110000110001101, unknown := 0 } =
      .ok (.cor 0xAB0C#16 6#4 true) := by decide

/-- Program P4: `cw = 0x290C` is `DEC 0x290C`. -/
theorem test_decode_dec :
    decode { operation := .dec, word := 0b0010100100001100, unknown := 0 } = .ok (.dec 0x290C#16) := by decide

/-- Program P1: `COR 0x609F, 0, 0` is written `0x0C13E0`. -/
theorem test_encode_cor : encode (.cor 0x609F#16 0#4 false) = { operation := .cor, word := 0x0C13E0, unknown := 0 } := by
  decide

/-- R13: no 16-bit port carries a 17-bit word, and no corrector input a 22-bit one. -/
theorem test_decode_refuses_wide_words :
    decode { operation := .syn, word := 0x10000, unknown := 0 } = .error (.wordTooWide .syn) ∧
      decode { operation := .cor, word := 0x200000, unknown := 0 } = .error (.wordTooWide .cor) ∧
      decode { operation := .dec, word := 0x10000, unknown := 0 } = .error (.wordTooWide .dec) := by decide

/-- R82: one undriven input bit. -/
theorem test_decode_refuses_undriven_input :
    decode { operation := .dec, word := 0x609F, unknown := 0x0001 } = .error .inputUndriven := by decide

/-- Program P2's word as a table word of 21 bits in whole bytes. -/
theorem test_decodeTableWord_cor : decodeTableWord 24 0x15618D = some (.cor 0xAB0C#16 6#4 true) := by decide

/-- Log entry 3: a 16-bit table word goes to SYN. -/
theorem test_withFetchWord_runs_table_word :
    after State.syndromeDecoder (State.reset.withFetchWord 16 0x629F) =
      some { cw_i := some 0x629F#16, syndrome_o := some 6#4, parity_odd_o := some true } := by decide

/-! ### One step of each operation -/

/-- W1: encode(31) = 24735. -/
theorem test_enc_31 :
    after State.encoder (asking .enc 31 0) = some { msg_i := some 31#11, cw_o := some 0x609F#16 } := by decide +kernel

/-- V-ENC-20: alternating message bits. -/
theorem test_enc_1365 : after (fun t => t.encoder.cw_o) (asking .enc 1365 0) = some (some 0x5A55#16) := by decide +kernel

/-- Program P6: ENC 2111 is outside the precondition. -/
theorem test_enc_2111_faults : faultOf (asking .enc 2111 0) = some .preconditionViolation := by decide

/-- V-SYN-24. -/
theorem test_syn_1234 :
    after State.syndromeDecoder (asking .syn 0x1234 0) =
      some { cw_i := some 0x1234#16, syndrome_o := some 9#4, parity_odd_o := some true } := by decide

/-- V-SYN-22: only position 15, integer bit 0 (90_conflicts.md C1). -/
theorem test_syn_0001 :
    after State.syndromeDecoder (asking .syn 0x0001 0) =
      some { cw_i := some 0x0001#16, syndrome_o := some 15#4, parity_odd_o := some true } := by decide

/-- V-COR-10: row 3, with a syndrome that is not SYN's. -/
theorem test_cor_flips_position_7 :
    after State.corrector (asking .cor 0x2468F 0) =
      some (correctorValues 0x1234#16 7#4 true 0x1334#16 1460#11 true false) := by decide

/-- V-COR-8: row 4. -/
theorem test_cor_uncorrectable :
    after State.corrector (asking .cor 0xC13F2 0) =
      some (correctorValues 0x609F#16 9#4 false 0x609F#16 0#11 false true) := by decide

/-- V-DEC-S15: position 15 flipped. -/
theorem test_dec_corrects_position_15 :
    after State.corrector (asking .dec 0xA90D 0) =
      some (correctorValues 0xA90D#16 15#4 true 0xA90C#16 140#11 true false) := by decide

/-- V-DEC-S0: the degenerate row leaves position 0 wrong. -/
theorem test_dec_degenerate_row :
    after State.corrector (asking .dec 0x290C 0) =
      some (correctorValues 0x290C#16 0#4 true 0x290C#16 140#11 false false) := by decide

/-- R82: a COR whose `parity_odd_i` is not driven. -/
theorem test_undriven_parity_faults : faultOf (asking .cor 0x15618C 1) = some .undrivenInput := by decide

/-- R13: a word that no `cw_i` carries. -/
theorem test_wide_word_is_refused : refusalOf (asking .syn 70000 0) = some (.inputTooWide .syn) := by decide

/-! ### The host's procedures -/

/-- W4, V-HOST-1: the sequence is transformed in place, the other sequence is not. -/
theorem test_encodeAll :
    (match encodeAll 1 { machine := State.reset, sequences := [[7], [1010, 0, 620]] } with
      | .next h => h.sequences
      | _ => []) = [[7], [10098, 0, 27756]] := by decide +kernel

/-- V-HOST-10: the fault is at index 1. -/
theorem test_encodeAll_faults :
    (match encodeAll 0 { machine := State.reset, sequences := [[1, 2048]] } with
      | .fault f => some f
      | _ => none) = some .preconditionViolation := by decide +kernel

/-- V-HOST-5: the corrupted entry hides the match after it. -/
theorem test_find_corrupted :
    (match find [0x609F#16, 0xC90C#16, 0x48B8#16] 56 State.reset with
      | .next (r, _) => some r
      | _ => none) = some .corrupted := by decide

/-- V-HOST-11 and V-HOST-12. -/
theorem test_flip : Sys2Proof.Machine.flip 0x609F#16 0 = 0xE09F#16 ∧ Sys2Proof.Machine.flip 0x609F#16 15 = 0x609E#16 := by
  decide

/-- R34: an operand that is a bound result field. -/
theorem test_line_uses_bound_name :
    (match (Line.syn (.field 7 .cw)).run { host := { machine := State.reset, sequences := [] }, bound := [(7, .encoded 0x629F#16)] } with
      | .next (v, _) => some v
      | _ => none) = some (.syndrome 6#4 true) := by decide

/-! ### Witnesses: the hypotheses of each statement hold together -/

theorem witness_EncodeOfDecode :
    decode { operation := .cor, word := 0x1FFFFF, unknown := 0 } = .ok (.cor 0xFFFF#16 15#4 true) ∧
      decode { operation := .enc, word := 5000, unknown := 0 } = .ok (.enc 5000) := by decide

theorem witness_EveryInputValueIsLegal :
    2047 < 2 ^ Operation.enc.width ∧ 0xFFFF < 2 ^ Operation.syn.width ∧ 0x1FFFFF < 2 ^ Operation.cor.width ∧
      0 < 2 ^ Operation.dec.width := by decide

theorem witness_StepRunsDecodedOperation :
    (asking .dec 0x609F 0).pending = { operation := .dec, word := 0x609F, unknown := 0 } :: [] ∧
      decode { operation := .dec, word := 0x609F, unknown := 0 } = .ok (.dec 0x609F#16) := by decide

theorem witness_StepIdlesWithoutRequest : State.reset.pending = [] := by decide

theorem witness_UndrivenInputFaults :
    (asking .syn 0 0x8000).pending = { operation := .syn, word := 0, unknown := 0x8000 } :: [] ∧ 0x8000 ≠ 0 := by decide

/-- Each clause, at the values where they meet: 2047 and 2048 for ENC, the greatest and the first too wide word. -/
theorem witness_StepStopsExactlyWhen :
    faultOf (asking .enc 2048 1) = some .undrivenInput ∧ faultOf (asking .enc 2048 0) = some .preconditionViolation ∧
      (after State.pending (asking .enc 2047 0)) = some [] ∧
      refusalOf (asking .dec 0x10000 0) = some (.inputTooWide .dec) ∧
      (after State.pending (asking .dec 0xFFFF 0)) = some [] ∧ (after State.pending State.reset) = some [] := by decide

theorem witness_EncAboveRangeFaults : 2048 > 2047 ∧ 2047 ≤ 2047 := by decide

theorem witness_EncOutputProperties : encodeMessage 2047#11 = encodeMessage 0x7FF#11 := by decide +kernel

theorem witness_SynDoubleErrorSignature : (0 : Position) ≠ 15 := by decide

theorem witness_CorDegenerateRow : totalParity 0x290C#16 = true := by decide

/-- Row 3's clauses: a parity position, the first and the last data position. -/
theorem witness_CorSingleErrorRow :
    8#4 ≠ 0#4 ∧ (8#4).toNat ∈ [1, 2, 4, 8] ∧
      (3#4 ≠ 0#4 ∧ (3#4).toNat = [3, 5, 6, 7, 9, 10, 11, 12, 13, 14, 15].getD (10 - 10) 0) ∧
      (15#4 ≠ 0#4 ∧ (15#4).toNat = [3, 5, 6, 7, 9, 10, 11, 12, 13, 14, 15].getD (10 - 0) 0) := by decide

theorem witness_CorDoubleErrorRow : 1#4 ≠ 0#4 := by decide

/-- Each code of R70 appears: rows 1, 3 and 4 (V-COR-1, V-COR-3, V-COR-4); row 2 shares row 1's (V-COR-2). -/
theorem witness_CorCodeSeparatesCorrectedAndUncorrectable :
    (correctorPorts 0x609F#16 0#4 false).code = some 0b00#2 ∧
      (correctorPorts 0x609F#16 0#4 true).code = some 0b00#2 ∧ (correctorPorts 0x629F#16 6#4 true).code = some 0b01#2 ∧
      (correctorPorts 0x629F#16 6#4 false).code = some 0b10#2 := by decide

/-- The tag at 1 and at 0 (V-COR-4, V-COR-6). -/
theorem witness_OutcomeFollowsTagAlone :
    (correctorPorts 0x629F#16 6#4 false).uncorrectable_o = some true ∧
      (correctorPorts 0xFFFF#16 1#4 true).uncorrectable_o = some false := by decide

theorem witness_SecdedGuarantee : (1 : Position) ≠ 0 ∧ (14 : Position) ≠ 15 := by decide

/-- V-DEC-M11: a miscorrection flips a bit. -/
theorem witness_CorrectionYieldsCodeword :
    after (fun t => t.corrector.single_err_o) (asking .dec 0x089F 0) = some (some true) := by decide

/-- V-DEC-M9 and V-DEC-M13: patterns of weight 3 and 4. -/
theorem witness_ErrorWeightParityDecidesRows :
    popcount (0x609F#16 ^^^ 0x769F#16) % 2 = 1 ∧ popcount (0x609F#16 ^^^ 0x76DF#16) % 2 = 0 := by decide

/-- V-DEC-S7. -/
theorem witness_RedecodingIsStable :
    after (fun t => t.corrector.uncorrectable_o) (asking .dec 0xA80C 0) = some (some false) := by decide

theorem asking_inv (op : Operation) (word unknown : Nat) : (asking op word unknown).Inv :=
  ⟨⟨.inl rfl, .inl rfl, .inl rfl⟩, .inl rfl, .inl rfl⟩

/-- A state that meets the invariant, and a step of it that answers a next state. -/
theorem witness_StepKeepsPortsSettled :
    (asking .dec 0xA90D 0).Inv ∧ (after State.pending (asking .dec 0xA90D 0)) = some [] :=
  ⟨asking_inv _ _ _, by decide⟩

theorem witness_TransactionDrivesOnlyItsPorts :
    (match exec (.cor 0x1234#16 7#4 true) State.reset with | .next t => some t.pending | _ => none) = some [] := by
  decide

theorem witness_FirstTransactionNeedsNoBoot : (Instr.cor 0x1234#16 7#4 true).wellFormed = true := by decide

theorem witness_OutputsDependOnInputsOnly : (Instr.enc 2047).wellFormed = true := by decide

theorem witness_TransactionOrderDoesNotMatter :
    (∀ j ∈ [Instr.syn 0x609F#16, Instr.enc 31], j.wellFormed = true) ∧ (Instr.dec 0xA90D#16).wellFormed = true ∧
      { State.reset with
        pending := [encode (.syn 0x609F#16), encode (.enc 31), encode (.dec 0xA90D#16), encode (.enc 0)] }.pending =
        [Instr.syn 0x609F#16, Instr.enc 31].map encode ++ encode (.dec 0xA90D#16) :: [encode (.enc 0)] := by decide

theorem witness_SafeRunsNeverStop : (asking .enc 2047 0).safe := by
  intro r h
  have hr : r = { operation := .enc, word := 2047, unknown := 0 } := by
    simpa [asking, State.reset] using h
  exact ⟨.enc 2047, by rw [hr]; decide, by decide⟩

/-- Both clauses, at their boundary, and the empty sequence. -/
theorem witness_EncodeAllEncodesEachElement :
    ([[0, 2047], [1, 2048], []] : List (List Nat))[0]? = some [0, 2047] ∧ (∀ v ∈ [0, 2047], v ≤ 2047) ∧
      ([[0, 2047], [1, 2048], []] : List (List Nat))[1]? = some [1, 2048] ∧ (∃ v ∈ [1, 2048], v > 2047) ∧
      ([[0, 2047], [1, 2048], []] : List (List Nat))[2]? = some [] :=
  ⟨rfl, by decide, rfl, ⟨2048, by decide, by decide⟩, rfl⟩

theorem witness_EncodeAllLineChangesNamedSequence :
    lookup 4 [(4, Value.sequence 0)] = .ok (.sequence 0) ∧ ([[31, 2047]] : List (List Nat))[0]? = some [31, 2047] ∧
      (∀ w ∈ [31, 2047], w ≤ 2047) ∧ [31, 2047][1]? = some 2047 := by decide

/-- Each result appears: V-HOST-4, V-HOST-5, V-HOST-7. -/
theorem witness_FindReportsFirstDecidingEntry :
    (match find [0x609F#16, 0xA90C#16, 0x48B8#16] 56 State.reset with | .next (r, _) => some r | _ => none) =
        some (.found 2) ∧
      (match find [0x609F#16, 0xC90C#16] 56 State.reset with | .next (r, _) => some r | _ => none) =
        some .corrupted ∧
      (match find [] 5 State.reset with | .next (r, _) => some r | _ => none) = some .notFound := by decide

theorem witness_DecLineExpandsToSynAndCor : 65535 < 65536 := by decide

end Sys2Proof.Tests.Slice0
end

section
/-! PROOFS. The obligations of 00_scope.md: positions, their roles, and the parity of a word. -/

namespace Sys2Proof.Machine

/-- One step of reading a number's bits from the most significant one down. -/
theorem shiftRight_eq_two_mul_add_testBit (x i : Nat) :
    x >>> i = 2 * (x >>> (i + 1)) + (x.testBit i).toNat := by
  rw [Nat.shiftRight_succ, Nat.toNat_testBit, ← Nat.shiftRight_eq_div_pow, Nat.div_add_mod]

/-- Reading bits `n - 1` down to 0 after the bits above them gives the whole number. -/
theorem foldl_testBit_descending (x n : Nat) :
    (List.range n).reverse.foldl (fun a i => 2 * a + (x.testBit i).toNat) (x >>> n) = x := by
  induction n with
  | zero => rfl
  | succ n ih =>
    rw [List.range_succ, List.reverse_append, List.reverse_singleton, List.singleton_append, List.foldl_cons,
      ← shiftRight_eq_two_mul_add_testBit]
    exact ih

/-- Positions 0 to 15 are the integer bits 15 down to 0 (R5). -/
theorem allPositions_bits_descending : allPositions.map (fun p => 15 - p.val) = (List.range 16).reverse := by
  decide

/-- A codeword is the bit string of its positions, position 0 the most significant (R5). -/
theorem codeword_toNat_eq_foldl_pos (c : Codeword) :
    c.toNat = allPositions.foldl (fun n p => 2 * n + (pos c p).toNat) 0 := by
  have start : c.toNat >>> 16 = 0 := Nat.shiftRight_eq_zero _ _ c.isLt
  have read := foldl_testBit_descending c.toNat 16
  rw [start, ← allPositions_bits_descending, List.foldl_map] at read
  exact read.symm

/-- The XOR of a list of bits is 1 exactly when an odd number of them is 1. -/
theorem xorAll_map_eq_odd_countP {α : Type} (l : List α) (f : α → Bool) :
    xorAll (l.map f) = decide (l.countP f % 2 = 1) := by
  induction l with
  | nil => rfl
  | cons a l ih =>
    rw [List.map_cons, xorAll_cons, ih, List.countP_cons]
    cases f a
    · simp
    · rcases Nat.mod_two_eq_zero_or_one (l.countP f) with even | odd
      · simp [Nat.add_mod, even]
      · simp [Nat.add_mod, odd]

/-- `xor_reduce` is the parity of `popcount` (00_scope.md section 5, R7). -/
theorem xorReduce_eq_odd_popcount {n : Nat} (w : BitVec n) : xorReduce w = decide (popcount w % 2 = 1) :=
  xorAll_map_eq_odd_countP (List.range n) fun i => w.getLsbD i

/-- Settles O1: the positions are the integer bits in descending order. -/
theorem positionsReadLeftToRight : Obligations.PositionsReadLeftToRight := by
  unfold Obligations.PositionsReadLeftToRight
  exact fun c => ⟨fun _ => rfl, codeword_toNat_eq_foldl_pos c⟩

/-- Settles O3, by induction over the bits of the word. -/
theorem xorReduceIsOddPopcount : Obligations.XorReduceIsOddPopcount := by
  unfold Obligations.XorReduceIsOddPopcount
  exact fun _ w => xorReduce_eq_odd_popcount w

/-- Settles O2: each of the three lists is checked element by element against R6. -/
theorem positionRolesFollowPowersOfTwo : Obligations.PositionRolesFollowPowersOfTwo := by
  unfold Obligations.PositionRolesFollowPowersOfTwo
  refine ⟨?dataByRole, ?dataListed, ?parityPowers⟩
  case dataByRole => decide
  case dataListed => decide
  case parityPowers => decide

end Sys2Proof.Machine
end

section
/-! PROOFS. The obligations of 10_state.md: what one operation and one step leave on the ports, and that nothing earlier
reaches them. -/

namespace Sys2Proof.Machine

/-! ### The invariant: each way to drive the ports meets it, whatever the ports held before -/

theorem State.driveEncoder_inv (s : State) (m : Message) : (s.driveEncoder (encoderPorts m)).Inv :=
  ⟨⟨.inr ⟨m, rfl⟩, .inl rfl, .inl rfl⟩, .inl rfl, .inr ⟨rfl, rfl⟩⟩

theorem State.driveSyndromeDecoder_inv (s : State) (c : Codeword) :
    (s.driveSyndromeDecoder (syndromeDecoderPorts c)).Inv :=
  ⟨⟨.inl rfl, .inr ⟨c, rfl⟩, .inl rfl⟩, .inr (.inl rfl), .inl rfl⟩

theorem State.driveCorrector_inv (s : State) (c : Codeword) (y : Syndrome) (p : Bool) :
    (s.driveCorrector (correctorPorts c y p)).Inv :=
  ⟨⟨.inl rfl, .inl rfl, .inr ⟨c, y, p, rfl⟩⟩, .inl rfl, .inl rfl⟩

/-- Only with the syndrome decoder's own outputs on the corrector's inputs: this is R58's wiring. -/
theorem State.driveWired_inv (s : State) (c : Codeword) :
    (s.driveWired (syndromeDecoderPorts c) (correctorPorts c (syndrome c) (totalParity c))).Inv :=
  ⟨⟨.inl rfl, .inr ⟨c, rfl⟩, .inr ⟨c, syndrome c, totalParity c, rfl⟩⟩, .inr (.inr ⟨rfl, rfl, rfl⟩), .inl rfl⟩

/-- An operation establishes the invariant: the state it starts from need not meet it. -/
theorem exec_next_inv {i : Instr} {s t : State} (h : exec i s = .next t) : t.Inv := by
  obtain ⟨v, -, -, rfl⟩ | ⟨c, -, rfl⟩ | ⟨c, y, p, -, rfl⟩ | ⟨c, -, rfl⟩ := exec_next_cases h
  · exact s.driveEncoder_inv _
  · exact s.driveSyndromeDecoder_inv c
  · exact s.driveCorrector_inv c y p
  · exact s.driveWired_inv c

/-- All that `step` can do when it answers a next state: idle, or run the oldest request's operation. -/
theorem step_next_cases {s t : State} (h : step s = .next t) :
    (s.pending = [] ∧ t = s) ∨
      ∃ r rest i, s.pending = r :: rest ∧ decode r = .ok i ∧ exec i { s with pending := rest } = .next t := by
  obtain ⟨hp, hs⟩ | ⟨r, rest, i, hp, hd, hs⟩ | ⟨_, _, e, -, -, hs⟩ := step_cases s
  · rw [hs] at h
    injection h with h
    exact .inl ⟨hp, h.symm⟩
  · exact .inr ⟨r, rest, i, hp, hd, hs.symm.trans h⟩
  · exact absurd (hs.symm.trans h) (rejectRequest_ne_next e t)

/-- Settles O43: an idle step keeps the invariant, and an operation establishes it. -/
theorem stepKeepsPortsSettled : Obligations.StepKeepsPortsSettled := by
  unfold Obligations.StepKeepsPortsSettled
  intro s t hs h
  obtain ⟨-, rfl⟩ | ⟨_, _, _, -, -, hexec⟩ := step_next_cases h
  · exact hs
  · exact exec_next_inv hexec

/-- Settles O10: of the three things a step can do, the other two take a request. -/
theorem stepIdlesWithoutRequest : Obligations.StepIdlesWithoutRequest := by
  unfold Obligations.StepIdlesWithoutRequest
  intro s hp
  obtain ⟨-, hs⟩ | ⟨_, _, _, hr, -, -⟩ | ⟨_, _, _, hr, -, -⟩ := step_cases s
  · exact hs
  · cases hp.symm.trans hr
  · cases hp.symm.trans hr

/-! ### The frame and the independence of an operation -/

/-- Settles O46: the one clause that speaks of the operation's block holds by the fields of its drive, and each of the
others speaks of another block. -/
theorem transactionDrivesOnlyItsPorts : Obligations.TransactionDrivesOnlyItsPorts := by
  unfold Obligations.TransactionDrivesOnlyItsPorts
  intro i s t h
  obtain ⟨v, rfl, -, rfl⟩ | ⟨c, rfl, rfl⟩ | ⟨c, y, p, rfl, rfl⟩ | ⟨c, rfl, rfl⟩ := exec_next_cases h
  · exact ⟨rfl, fun _ => ⟨rfl, rfl⟩, nofun, nofun, nofun⟩
  · exact ⟨rfl, nofun, fun _ => ⟨rfl, rfl⟩, nofun, nofun⟩
  · exact ⟨rfl, nofun, nofun, fun _ => ⟨rfl, rfl⟩, nofun⟩
  · exact ⟨rfl, nofun, nofun, nofun, fun _ => rfl⟩

/-- ENC's operand is in range exactly when the operation is well-formed (R42). -/
@[simp] theorem wellFormed_enc_iff (v : Nat) : (Instr.enc v).wellFormed = true ↔ v ≤ 2047 := by
  simp [Instr.wellFormed]

/-- A well-formed operation answers a next state from every state: only ENC has a precondition (R41, R49, R61). -/
theorem exec_next_of_wellFormed {i : Instr} (h : i.wellFormed = true) (s : State) : ∃ t, exec i s = .next t := by
  cases i with
  | enc v => exact ⟨_, exec_enc_within ((wellFormed_enc_iff v).1 h) s⟩
  | syn c => exact ⟨_, exec_syn c s⟩
  | cor c y p => exact ⟨_, exec_cor c y p s⟩
  | dec c => exact ⟨_, exec_dec c s⟩

/-- Whatever two states an operation starts from, it drives equal values on its own ports (R14). -/
theorem samePorts_of_exec {i : Instr} {s r t u : State} (hs : exec i s = .next t) (hr : exec i r = .next u) :
    samePorts i.operation t u := by
  obtain ⟨v, rfl, hv, rfl⟩ | ⟨c, rfl, rfl⟩ | ⟨c, y, p, rfl, rfl⟩ | ⟨c, rfl, rfl⟩ := exec_next_cases hs
  · rw [exec_enc_within hv] at hr
    cases hr
    exact rfl
  · cases hr
    exact rfl
  · cases hr
    exact rfl
  · cases hr
    exact ⟨rfl, rfl⟩

/-- Settles O47: a well-formed operation completes from both states, with equal ports. -/
theorem outputsDependOnInputsOnly : Obligations.OutputsDependOnInputsOnly := by
  unfold Obligations.OutputsDependOnInputsOnly
  intro i s r h
  obtain ⟨t, ht⟩ := exec_next_of_wellFormed h s
  obtain ⟨u, hu⟩ := exec_next_of_wellFormed h r
  exact ⟨t, u, ht, hu, samePorts_of_exec ht hu⟩

end Sys2Proof.Machine
end

section
/-! PROOFS. The obligation of 20_memory.md: no transaction observes another. What the request of an operation decodes to,
what a step on it does, and what a run over a queue of such requests leaves. -/

namespace Sys2Proof

/-- An operation's request fits its block's ports: ENC's is never cut, the others' operands have their ports' widths. -/
theorem encode_fits (i : Instr) : (encode i).fits = true := by
  rw [Request.fits_iff]
  cases i with
  | enc v => exact .inl rfl
  | syn c => exact .inr (Laws.WordFits.syn c rfl)
  | cor c y p => exact .inr (Laws.WordFits.cor c y p rfl)
  | dec c => exact .inr (Laws.WordFits.dec c rfl)

/-- Reading an operation's own input word, by its own block, gives the operation back (R24, R31). -/
theorem decodeWord_inputWord (i : Instr) : decodeWord i.operation i.inputWord = i := by
  cases i with
  | enc v => rfl
  | syn c => simp [decodeWord, Instr.operation, Instr.inputWord]
  | cor c y p => simp [decodeWord, Instr.operation, Instr.inputWord]
  | dec c => simp [decodeWord, Instr.operation, Instr.inputWord]

/-- An operation's request decodes to the operation: neither of `decode`'s two errors applies to it. -/
@[simp] theorem decode_encode (i : Instr) : decode (encode i) = .ok i := by
  obtain ⟨hu, -⟩ | ⟨-, -, hd⟩ | ⟨-, hf, -⟩ := decode_cases (encode i)
  · exact absurd (encode_unknown i) hu
  · exact hd.trans (congrArg Except.ok (decodeWord_inputWord i))
  · cases (encode_fits i).symm.trans hf

end Sys2Proof

namespace Sys2Proof.Machine

/-- A step on a request that decodes runs its operation on the machine without the request (R25). -/
theorem step_of_decode {s : State} {r : Request} {rest : List Request} {i : Instr} (hp : s.pending = r :: rest)
    (hd : decode r = .ok i) : step s = exec i { s with pending := rest } := by
  obtain ⟨hp', -⟩ | ⟨r', rest', i', hp', hd', hs⟩ | ⟨r', rest', e, hp', hd', -⟩ := step_cases s
  · cases hp.symm.trans hp'
  · cases hp.symm.trans hp'
    cases hd.symm.trans hd'
    exact hs
  · cases hp.symm.trans hp'
    cases hd.symm.trans hd'

/-- An operation leaves the host's queue as it is (R10). -/
theorem exec_next_pending {i : Instr} {s t : State} (h : exec i s = .next t) : t.pending = s.pending :=
  (transactionDrivesOnlyItsPorts i s t h).1

/-- A step on a well-formed operation's request completes that operation and leaves the rest of the queue pending. -/
theorem step_wellFormed {s : State} {i : Instr} {rest : List Request} (hp : s.pending = encode i :: rest)
    (hi : i.wellFormed = true) :
    ∃ t, step s = .next t ∧ exec i { s with pending := rest } = .next t ∧ t.pending = rest := by
  obtain ⟨t, ht⟩ := exec_next_of_wellFormed hi { s with pending := rest }
  exact ⟨t, (step_of_decode hp (decode_encode i)).trans ht, ht, exec_next_pending ht⟩

/-- A run of one step more, when the first step answers a next state. -/
theorem run_succ_of_step {s t : State} (h : step s = .next t) (k : Nat) :
    Sys2Proof.core.run (k + 1) s = Sys2Proof.core.run k t := by
  simp only [Host.Core.run, core_step, h]

/-- A run that completes `k` steps goes on from the state it has reached. -/
theorem run_add {k : Nat} {s t : State} (h : Sys2Proof.core.run k s = .next t) (n : Nat) :
    Sys2Proof.core.run (k + n) s = Sys2Proof.core.run n t := by
  induction k generalizing s with
  | zero =>
    cases h
    rw [Nat.zero_add]
  | succ k ih =>
    rw [Nat.succ_add]
    cases hs : step s with
    | next u =>
      rw [run_succ_of_step hs] at h ⊢
      exact ih h
    | fault f => simp [Host.Core.run, hs] at h
    | refused f => simp [Host.Core.run, hs] at h

/-- A run over well-formed operations at the head of the queue completes them all and leaves what stands behind them. -/
theorem run_wellFormed_prefix (ops : List Instr) (rest : List Request) (s : State)
    (hops : ∀ j ∈ ops, j.wellFormed = true) (hp : s.pending = ops.map encode ++ rest) :
    ∃ t, Sys2Proof.core.run ops.length s = .next t ∧ t.pending = rest := by
  induction ops generalizing s with
  | nil => exact ⟨s, rfl, hp⟩
  | cons j ops ih =>
    obtain ⟨hj, hops⟩ := List.forall_mem_cons.1 hops
    obtain ⟨u, hstep, -, hu⟩ := step_wellFormed hp hj
    obtain ⟨t, hrun, ht⟩ := ih u hops hu
    exact ⟨t, (run_succ_of_step hstep ops.length).trans hrun, ht⟩

/-- Settles O48, by induction over the operations before: they complete, the operation's own step follows, and its ports
do not depend on the state the earlier ones left. -/
theorem transactionOrderDoesNotMatter : Obligations.TransactionOrderDoesNotMatter := by
  unfold Obligations.TransactionOrderDoesNotMatter
  intro before i after s hbefore hi hp
  obtain ⟨r, hrun, hr⟩ := run_wellFormed_prefix before (encode i :: after) s hbefore hp
  obtain ⟨t, hstep, hexec, ht⟩ := step_wellFormed hr hi
  obtain ⟨u, hu⟩ := exec_next_of_wellFormed hi State.reset
  have hlast : Sys2Proof.core.run (before.length + 1) s = .next t :=
    (run_add hrun 1).trans (run_succ_of_step hstep 0)
  exact ⟨t, u, hlast, hu, samePorts_of_exec hexec hu, ht⟩

end Sys2Proof.Machine
end

section
/-! PROOFS. The obligations of 30_encoding.md: requests and operations stand one for one, every input word is legal, a
step runs what its request decodes to, and R35's expansion of a DEC line. -/

namespace Sys2Proof

/-! ### Reading an input word loses nothing -/

/-- R31's three fields hold every bit of COR's input word: written back as one word they give it again. -/
@[simp] theorem corWord_fields (x : BitVec 21) :
    corWord (corCodewordField x) (corSyndromeField x) (corParityField x) = x := by
  refine BitVec.eq_of_getLsbD_eq fun i hi => ?_
  rw [corWord_getLsbD]
  split_ifs with inParity inSyndrome
  · obtain rfl : i = 0 := by omega
    simp [corParityField]
  · have bit : 1 + (i - 1) = i := by omega
    simp [corSyndromeField, inSyndrome, bit]
  · have bit : 5 + (i - 1 - 4) = i := by omega
    have inCodeword : i - 1 - 4 < 16 := by omega
    simp [corCodewordField, inCodeword, bit]

/-- The block alone selects the operation (R24). -/
@[simp] theorem operation_decodeWord (op : Operation) (w : Nat) : (decodeWord op w).operation = op := by
  cases op <;> rfl

/-- A word of its row's width is the input word of the operation read from it (R24, R31). -/
theorem inputWord_decodeWord {op : Operation} {w : Nat} (h : w < 2 ^ op.width) :
    (decodeWord op w).inputWord = w := by
  cases op with
  | enc => rfl
  | syn => exact Nat.mod_eq_of_lt h
  | cor =>
    have whole := congrArg BitVec.toNat (corWord_fields (BitVec.ofNat 21 w))
    exact whole.trans (Nat.mod_eq_of_lt h)
  | dec => exact Nat.mod_eq_of_lt h

/-- A request that fits its ports, every bit driven, is the request of the operation read from its word. -/
theorem encode_decodeWord {r : Request} (hu : r.unknown = 0) (hf : r.fits = true) :
    encode (decodeWord r.operation r.word) = r := by
  obtain ⟨op, w, u⟩ := r
  have word : (decodeWord op w).inputWord = w := by
    obtain henc | hw := (Request.fits_iff _).1 hf
    · cases henc
      rfl
    · exact inputWord_decodeWord hw
  simp only [encode, operation_decodeWord, word]
  exact congrArg (Request.mk op w) hu.symm

/-- A request decodes to an operation exactly when it is that operation's request. -/
theorem decode_eq_ok_iff {r : Request} {i : Instr} : decode r = .ok i ↔ encode i = r := by
  constructor
  · intro h
    obtain ⟨-, hd⟩ | ⟨hu, hf, hd⟩ | ⟨-, -, hd⟩ := decode_cases r
    · cases hd.symm.trans h
    · cases hd.symm.trans h
      exact encode_decodeWord hu hf
    · cases hd.symm.trans h
  · rintro rfl
    exact decode_encode i

/-- A word of its row's width is read as a well-formed operation; only ENC asks anything of it (R33, R42). -/
theorem wellFormed_decodeWord {op : Operation} {w : Nat} (h : w < 2 ^ op.width) :
    (decodeWord op w).wellFormed = true := by
  cases op with
  | enc => exact (Machine.wellFormed_enc_iff w).2 (Nat.le_of_lt_succ h)
  | syn => rfl
  | cor => rfl
  | dec => rfl

/-- A driven word of its row's width decodes to the operation read from it. -/
theorem decode_of_lt_width {op : Operation} {w : Nat} (h : w < 2 ^ op.width) :
    decode { operation := op, word := w, unknown := 0 } = .ok (decodeWord op w) :=
  decode_eq_ok_iff.2 (encode_decodeWord (r := ⟨op, w, 0⟩) rfl ((Request.fits_iff _).2 (.inr h)))

/-- Settles O5: `decode_encode`. Its two parts are that a request made by `encode` fits its ports, and that each
operation is read back from its own input word, COR's by the three fields of R31. -/
theorem decodeOfEncode : Obligations.DecodeOfEncode := by
  unfold Obligations.DecodeOfEncode
  exact decode_encode

/-- Settles O6: a request that decodes is the request of its operation, since the fields read from a word that fits hold
all its bits. -/
theorem encodeOfDecode : Obligations.EncodeOfDecode := by
  unfold Obligations.EncodeOfDecode
  exact fun _ _ => decode_eq_ok_iff.1

/-- Settles O7: a word of the table's width is read as a well-formed operation, and those answer a next state. -/
theorem everyInputValueIsLegal : Obligations.EveryInputValueIsLegal := by
  unfold Obligations.EveryInputValueIsLegal
  intro op w h
  have hwf := wellFormed_decodeWord h
  exact ⟨decodeWord op w, decode_of_lt_width h, operation_decodeWord op w, hwf, Machine.exec_next_of_wellFormed hwf⟩

/-- Settles O8: each word is the input word of its operation. -/
theorem writtenWordsDecode : Obligations.WrittenWordsDecode := by
  unfold Obligations.WrittenWordsDecode
  refine ⟨?enc, ?syn, ?cor, ?dec⟩
  case enc => exact decode_eq_ok_iff.2 (by decide)
  case syn => exact decode_eq_ok_iff.2 (by decide)
  case cor => exact decode_eq_ok_iff.2 (by decide)
  case dec => exact decode_eq_ok_iff.2 (by decide)

end Sys2Proof

namespace Sys2Proof.Machine

/-- Settles O9: of the three things a step can do, the other two take no request or one that does not decode. -/
theorem stepRunsDecodedOperation : Obligations.StepRunsDecodedOperation := by
  unfold Obligations.StepRunsDecodedOperation
  exact fun _ _ _ _ => step_of_decode

/-! ### Operands in range -/

/-- A number in range is the word of that value (R34). -/
theorem inRange_of_lt {w n : Nat} (h : n < 2 ^ w) : inRange w n = .ok (BitVec.ofNat w n) := if_pos h

/-- The value of a word is in the range of its own width. -/
theorem inRange_toNat {w : Nat} (b : BitVec w) : inRange w b.toNat = .ok b := by
  rw [inRange_of_lt b.isLt, BitVec.ofNat_toNat, BitVec.setWidth_eq]

/-- A result bit, 0 or 1, is in the range of a one-bit operand. -/
theorem inRange_one_toNat (t : Bool) : inRange 1 t.toNat = .ok (BitVec.ofBool t) := by
  cases t <;> rfl

/-! ### Binding a name -/

section Binding
variable (ses : Session) (x : Nat) (v : Value)

/-- A name reads as what it was bound to last (log entry 11). -/
@[simp] theorem lookup_bind_same : lookup x (ses.bind (some x) v).bound = .ok v := by
  simp [lookup, Session.bind]

/-- A field of a name is that field of what the name was bound to last. -/
@[simp] theorem resolve_field_bind_same (f : Field) :
    (Operand.field x f).resolve (ses.bind (some x) v) = orNoField (v.field f) := by
  simp [Operand.resolve, Except.bind]

/-- `x.s` after `x := SYN c` is the syndrome itself: R34's range for COR's operand cuts nothing. -/
theorem resolve_syndrome_bind_same (s : Syndrome) (t : Bool) :
    ((Operand.field x .s).resolve (ses.bind (some x) (.syndrome s t))).bind (inRange 4) = .ok s := by
  rw [resolve_field_bind_same]
  exact inRange_toNat s

/-- `x.t` after `x := SYN c` is the total parity itself. -/
theorem resolve_parity_bind_same (s : Syndrome) (t : Bool) :
    ((Operand.field x .t).resolve (ses.bind (some x) (.syndrome s t))).bind (inRange 1) =
      .ok (BitVec.ofBool t) := by
  rw [resolve_field_bind_same]
  exact inRange_one_toNat t

end Binding

/-! ### The core's lines -/

/-- A core's line whose operation completes and whose result can be sampled: the host's queue is as it was (R25). -/
theorem runOperation_of_exec {i : Instr} {sample : State → Option Value} {h : HostState} {t : State} {v : Value}
    (hexec : exec i h.machine = .next t) (hv : sample t = some v) :
    runOperation i sample h = .next (v, h.withMachine t) := by
  have hstep : step (h.machine.submit (encode i)) = .next t :=
    (step_of_decode (State.submit_pending h.machine (encode i)) (decode_encode i)).trans hexec
  simp [runOperation, hstep, hv]

/-- What COR's and DEC's result fields hold when the corrector is given `c`, `y` and `p` (R34, R50). -/
def correctorValue (c : Codeword) (y : Syndrome) (p : Bool) : Value :=
  .corrected (correctedWord c y (row y p)) (recoveredWord c y (row y p)) (singleErr (row y p))
    (uncorrectable (row y p))

/-- The result depends on the corrector's ports alone: COR and DEC are sampled alike. -/
theorem sampleCorrector_of_ports {s : State} {c : Codeword} {y : Syndrome} {p : Bool}
    (h : s.corrector = correctorPorts c y p) : sampleCorrector s = some (correctorValue c y p) := by
  rw [sampleCorrector, h]
  rfl

section Lines
variable {ses : Session} {c s t : Operand} {w : Codeword} {y : Syndrome} {p : Bool}

/-- The line `SYN c`, once its operand is the word `w`. -/
theorem Line.run_syn (hc : (c.resolve ses).bind (inRange 16) = .ok w) :
    (Line.syn c).run ses = .next (.syndrome (syndrome w) (totalParity w),
      ses.host.withMachine (ses.host.machine.driveSyndromeDecoder (syndromeDecoderPorts w))) := by
  simp only [Line.run, hc, withOperand]
  exact runOperation_of_exec (exec_syn w _) rfl

/-- The line `COR c, s, t`, once its operands are the word `w`, the syndrome `y` and the parity `p`. -/
theorem Line.run_cor (hc : (c.resolve ses).bind (inRange 16) = .ok w) (hs : (s.resolve ses).bind (inRange 4) = .ok y)
    (ht : (t.resolve ses).bind (inRange 1) = .ok (BitVec.ofBool p)) :
    (Line.cor c s t).run ses = .next (correctorValue w y p,
      ses.host.withMachine (ses.host.machine.driveCorrector (correctorPorts w y p))) := by
  have parity : (BitVec.ofBool p).getLsbD 0 = p := by cases p <;> rfl
  simp only [Line.run, hc, hs, ht, withOperand, parity]
  exact runOperation_of_exec (exec_cor w y p _) (sampleCorrector_of_ports rfl)

/-- The line `COR c, x.s, x.t` where `x` was bound last, to a SYN line's result: R35's second line. -/
theorem Line.run_cor_after_syn {x : Nat}
    (hc : (c.resolve (ses.bind (some x) (.syndrome y p))).bind (inRange 16) = .ok w) :
    (Line.cor c (.field x .s) (.field x .t)).run (ses.bind (some x) (.syndrome y p)) = .next (correctorValue w y p,
      ses.host.withMachine (ses.host.machine.driveCorrector (correctorPorts w y p))) :=
  Line.run_cor hc (resolve_syndrome_bind_same ses x y p) (resolve_parity_bind_same ses x y p)

/-- The line `DEC c`, once its operand is the word `w`: the corrector is given `w`'s own syndrome and parity (R58). -/
theorem Line.run_dec (hc : (c.resolve ses).bind (inRange 16) = .ok w) :
    (Line.dec c).run ses = .next (correctorValue w (syndrome w) (totalParity w),
      ses.host.withMachine (ses.host.machine.driveWired (syndromeDecoderPorts w)
        (correctorPorts w (syndrome w) (totalParity w)))) := by
  simp only [Line.run, hc, withOperand]
  exact runOperation_of_exec (exec_dec w _) (sampleCorrector_of_ports rfl)

/-- Lines go on in the session that the first one leaves, when it has a result. -/
theorem Session.runAll_cons_of_run {l : Line} {v : Value} {h : HostState} (hl : l.run ses = .next (v, h))
    (x : Option Nat) (rest : List (Option Nat × Line)) :
    ses.runAll ((x, l) :: rest) = (Session.bind { ses with host := h } x v).runAll rest := by
  simp only [Session.runAll, Session.runLine, hl]

end Lines

/-- Settles O54: both ways the corrector is given the word with its own syndrome and parity, which COR's line reads back
from the fields of `y`, the name bound last before it. -/
theorem decLineExpandsToSynAndCor : Obligations.DecLineExpandsToSynAndCor := by
  unfold Obligations.DecLineExpandsToSynAndCor
  intro ses x y n hn
  have word : ∀ ses : Session,
      ((Operand.lit n).resolve ses).bind (inRange 16) = .ok (BitVec.ofNat 16 n) := fun _ => inRange_of_lt hn
  exact ⟨_, _, _, Session.runAll_cons_of_run (Line.run_dec (word ses)) (some x) [],
    (Session.runAll_cons_of_run (Line.run_syn (word ses)) (some y) _).trans
      (Session.runAll_cons_of_run (Line.run_cor_after_syn (word _)) (some x) []),
    lookup_bind_same _ x _, lookup_bind_same _ x _, rfl, rfl, rfl, rfl⟩

end Sys2Proof.Machine
end

section
/-! PROOFS. The obligations of 40_encoder.md: what each of ENC's three steps writes at each position, the parities of a
word as masked XORs, and with them the codeword's closed form and the properties of every ENC output. -/

namespace Sys2Proof.Machine

/-! ### XORs of selected bits -/

/-- The XOR of selected bits does not depend on the order in which they are taken. -/
theorem xorAll_map_perm {α : Type} {l k : List α} (h : l.Perm k) (f : α → Bool) :
    xorAll (l.map f) = xorAll (k.map f) := by
  rw [xorAll_map_eq_odd_countP, xorAll_map_eq_odd_countP, h.countP_eq]

/-- `xor_reduce(w & mask)` is the XOR of the bits of `w` at the set bits of the mask, listed in any order. -/
theorem xorReduce_and_of_perm {n : Nat} (w mask : BitVec n) {bits : List Nat}
    (h : bits.Perm ((List.range n).filter fun i => mask.getLsbD i)) :
    xorReduce (w &&& mask) = xorAll (bits.map w.getLsbD) := by
  rw [xorAll_map_perm h, xorReduce, xorAll_map_eq_odd_countP, xorAll_map_eq_odd_countP, List.countP_filter]
  simp only [BitVec.getLsbD_and]

/-- `xor_reduce` under a sum of masks is the sum of the `xor_reduce`s. -/
theorem xorReduce_and_xor {n : Nat} (w a b : BitVec n) :
    xorReduce (w &&& (a ^^^ b)) = (xorReduce (w &&& a) ^^ xorReduce (w &&& b)) := by
  have distrib : w &&& (a ^^^ b) = (w &&& a) ^^^ (w &&& b) :=
    BitVec.eq_of_getLsbD_eq fun i _ => by
      simp only [BitVec.getLsbD_and, BitVec.getLsbD_xor, Bool.and_xor_distrib_left]
  rw [distrib, xorReduce_xor]

/-- The bits of a codeword at a list of positions are its integer bits at `15 - p` (R5). -/
theorem map_pos_eq_map_getLsbD (c : Codeword) (l : List Position) :
    l.map (pos c) = (l.map fun p => 15 - p.val).map c.getLsbD :=
  List.map_map.symm

/-- `xor_reduce` of a codeword is the XOR over all positions. -/
theorem xorReduce_eq_xorAll_pos (c : Codeword) : xorReduce c = xorAll (allPositions.map (pos c)) := by
  rw [map_pos_eq_map_getLsbD, allPositions_bits_descending, xorAll_map_perm (List.reverse_perm _)]
  rfl

/-- `xor_reduce(c[14:0])` is the XOR over positions 1 to 15. -/
theorem xorReduce_low_bits_eq_xorAll_pos (c : Codeword) :
    xorReduce (c.extractLsb' 0 15) = xorAll (allPositions.tail.map (pos c)) := by
  have descending : allPositions.tail.map (fun p => 15 - p.val) = (List.range 15).reverse := by decide
  rw [map_pos_eq_map_getLsbD, descending, xorAll_map_perm (List.reverse_perm _), xorReduce]
  refine congrArg xorAll (List.map_congr_left fun i hi => ?_)
  simp [List.mem_range.1 hi]

/-! ### A loop of position writes -/

section Writes
variable {α : Type} (l : List α) (f : α → Position) (b : α → Bool) (c : Codeword)

/-- Writes elsewhere leave a position as it was. -/
theorem pos_foldl_setPos_of_forall_ne {p : Position} (h : ∀ a ∈ l, f a ≠ p) :
    pos (l.foldl (fun w a => setPos w (f a) (b a)) c) p = pos c p := by
  induction l generalizing c with
  | nil => rfl
  | cons x l ih =>
    obtain ⟨hx, hl⟩ := List.forall_mem_cons.1 h
    rw [List.foldl_cons, ih _ hl, pos_setPos, if_neg hx]

/-- Writes at distinct positions all read back. -/
theorem pos_foldl_setPos_of_mem (distinct : (l.map f).Nodup) {a : α} (ha : a ∈ l) :
    pos (l.foldl (fun w a => setPos w (f a) (b a)) c) (f a) = b a := by
  induction l generalizing c with
  | nil => cases ha
  | cons x l ih =>
    obtain ⟨hx, hl⟩ := List.nodup_cons.1 distinct
    obtain rfl | ha := List.mem_cons.1 ha
    · have later : ∀ y ∈ l, f y ≠ f a := fun y hy e => hx (e ▸ List.mem_map_of_mem hy)
      rw [List.foldl_cons, pos_foldl_setPos_of_forall_ne l f b _ later, pos_setPos, if_pos rfl]
    · exact ih _ hl ha

end Writes

/-! ### Step 1, data placement (R37) -/

/-- `DATA[10-k]`, the position of message bit `k` (R28, R37). -/
def messagePosition (k : Nat) : Position := dataPositions.getD (10 - k) 0

/-- The data positions are those of the message bits 10 down to 0. -/
theorem dataPositions_eq_map_messagePosition : dataPositions = (List.range 11).reverse.map messagePosition := by
  decide

theorem messagePosition_mem_dataPositions {k : Nat} (hk : k < 11) : messagePosition k ∈ dataPositions := by
  rw [dataPositions_eq_map_messagePosition]
  exact List.mem_map_of_mem (List.mem_reverse.2 (List.mem_range.2 hk))

/-- Step 1 writes message bit `k` at its position. -/
theorem pos_placeData_messagePosition (m : Message) {k : Nat} (hk : k < 11) :
    pos (placeData m) (messagePosition k) = m.getLsbD k :=
  pos_foldl_setPos_of_mem (List.range 11) messagePosition m.getLsbD 0#16 (by decide) (List.mem_range.2 hk)

/-- Step 1 writes no other position. -/
theorem pos_placeData_of_notMem (m : Message) {p : Position} (hp : p ∉ dataPositions) :
    pos (placeData m) p = false := by
  have elsewhere : ∀ k ∈ List.range 11, messagePosition k ≠ p := fun k hk e =>
    hp (e ▸ messagePosition_mem_dataPositions (List.mem_range.1 hk))
  exact (pos_foldl_setPos_of_forall_ne (List.range 11) messagePosition m.getLsbD 0#16 elsewhere).trans (pos_zero p)

/-- The data bits after step 1 at a list of message bits' positions are those message bits. -/
theorem map_pos_placeData_messagePosition (m : Message) {bits : List Nat} (h : ∀ k ∈ bits, k < 11) :
    (bits.map messagePosition).map (pos (placeData m)) = bits.map m.getLsbD := by
  rw [List.map_map]
  exact List.map_congr_left fun k hk => pos_placeData_messagePosition m (h k hk)

/-! ### Step 2, group parity (R38) -/

/-- The group-parity position `2^j`. -/
def parityPosition (j : Nat) : Position := parityPositions.getD j 0

theorem parityPosition_ne_of_mem_dataPositions {j : Nat} (hj : j < 4) {p : Position} (hp : p ∈ dataPositions) :
    parityPosition j ≠ p := by
  revert hp p j; decide

/-- Group-parity positions do not cover one another: a covered position is a data position (R38). -/
theorem mem_dataPositions_of_mem_coverage {j : Nat} (hj : j < 4) {p : Position} (hp : p ∈ coverage j) :
    p ∈ dataPositions := by
  revert hp p j; decide

/-- A group's parity depends on the data positions alone. -/
theorem groupParity_congr {a b : Codeword} {j : Nat} (hj : j < 4) (h : ∀ p ∈ dataPositions, pos a p = pos b p) :
    groupParity a j = groupParity b j :=
  congrArg xorAll (List.map_congr_left fun p hp => h p (mem_dataPositions_of_mem_coverage hj hp))

/-- No group parity reads another: each may be taken from any word with the same data bits as the word written. -/
theorem foldl_groupParity_eq (c : Codeword) (js : List Nat) (hjs : ∀ j ∈ js, j < 4) (w : Codeword)
    (hw : ∀ p ∈ dataPositions, pos w p = pos c p) :
    js.foldl (fun w j => setPos w (parityPosition j) (groupParity w j)) w =
      js.foldl (fun w j => setPos w (parityPosition j) (groupParity c j)) w := by
  induction js generalizing w with
  | nil => rfl
  | cons j js ih =>
    obtain ⟨hj, hjs⟩ := List.forall_mem_cons.1 hjs
    rw [List.foldl_cons, List.foldl_cons, groupParity_congr hj hw]
    refine ih hjs _ fun p hp => ?_
    rw [pos_setPos, if_neg (parityPosition_ne_of_mem_dataPositions hj hp), hw p hp]

/-- Step 2 writes the four group parities of the word it is given (R38: their order does not matter). -/
theorem placeGroupParity_eq (c : Codeword) :
    placeGroupParity c = (List.range 4).foldl (fun w j => setPos w (parityPosition j) (groupParity c j)) c :=
  foldl_groupParity_eq c (List.range 4) (fun _ => List.mem_range.1) c fun _ _ => rfl

theorem pos_placeGroupParity_parityPosition (c : Codeword) {j : Nat} (hj : j < 4) :
    pos (placeGroupParity c) (parityPosition j) = groupParity c j := by
  rw [placeGroupParity_eq]
  exact pos_foldl_setPos_of_mem (List.range 4) parityPosition (groupParity c) c (by decide) (List.mem_range.2 hj)

/-- Step 2 leaves the data positions as they were. -/
theorem pos_placeGroupParity_of_mem_dataPositions (c : Codeword) {p : Position} (hp : p ∈ dataPositions) :
    pos (placeGroupParity c) p = pos c p := by
  rw [placeGroupParity_eq]
  exact pos_foldl_setPos_of_forall_ne (List.range 4) parityPosition (groupParity c) c fun j hj =>
    parityPosition_ne_of_mem_dataPositions (List.mem_range.1 hj) hp

/-! ### Step 3, overall parity (R39), and the whole codeword -/

/-- Step 3 leaves positions 1 to 15 as they were. -/
theorem pos_placeOverallParity_of_ne (c : Codeword) {p : Position} (hp : p ≠ 0) :
    pos (placeOverallParity c) p = pos c p := by
  rw [placeOverallParity, pos_setPos, if_neg hp.symm]

/-- Step 3 writes at position 0 the parity of positions 1 to 15, which read the same before and after it. -/
theorem pos_placeOverallParity_zero (c : Codeword) :
    pos (placeOverallParity c) 0 = xorAll (allPositions.tail.map (pos (placeOverallParity c))) := by
  have others : ∀ p ∈ allPositions.tail, p ≠ 0 := by decide
  rw [List.map_congr_left fun p hp => pos_placeOverallParity_of_ne c (others p hp), placeOverallParity, pos_setPos,
    if_pos rfl]

/-- Steps 2 and 3 leave the data positions as step 1 wrote them. -/
theorem pos_encodeMessage_of_mem_dataPositions (m : Message) {p : Position} (hp : p ∈ dataPositions) :
    pos (encodeMessage m) p = pos (placeData m) p := by
  have nonzero : p ≠ 0 := by rintro rfl; revert hp; decide
  rw [encodeMessage, pos_placeOverallParity_of_ne _ nonzero, pos_placeGroupParity_of_mem_dataPositions _ hp]

/-- The codeword holds message bit `k` at its position. -/
theorem pos_encodeMessage_messagePosition (m : Message) {k : Nat} (hk : k < 11) :
    pos (encodeMessage m) (messagePosition k) = m.getLsbD k := by
  rw [pos_encodeMessage_of_mem_dataPositions m (messagePosition_mem_dataPositions hk),
    pos_placeData_messagePosition m hk]

/-- Step 3 leaves the group parities as step 2 wrote them. -/
theorem pos_encodeMessage_parityPosition (m : Message) {j : Nat} (hj : j < 4) :
    pos (encodeMessage m) (parityPosition j) = groupParity (placeData m) j := by
  have nonzero : parityPosition j ≠ 0 := by revert hj j; decide
  rw [encodeMessage, pos_placeOverallParity_of_ne _ nonzero, pos_placeGroupParity_parityPosition _ hj]

/-! ### The codeword's parities as masks (R36, R38) -/

/-- A group's parity is the `xor_reduce` of the word under the mask of its covered positions. -/
theorem groupParity_eq_xorReduce_and (c mask : Codeword) {j : Nat}
    (h : ((coverage j).map fun p => 15 - p.val).Perm ((List.range 16).filter fun i => mask.getLsbD i)) :
    groupParity c j = xorReduce (c &&& mask) := by
  rw [xorReduce_and_of_perm c mask h, ← map_pos_eq_map_getLsbD, groupParity]

/-- The XOR of the data bits after step 1 at some positions is the `xor_reduce` of the message under the mask of the
message bits there. -/
theorem xorAll_pos_placeData_eq_xorReduce_and (m mask : Message) {l : List Position}
    (h : l.Perm (((List.range 11).filter fun k => mask.getLsbD k).map messagePosition)) :
    xorAll (l.map (pos (placeData m))) = xorReduce (m &&& mask) := by
  have inRange : ∀ k ∈ (List.range 11).filter (fun k => mask.getLsbD k), k < 11 := fun k hk =>
    List.mem_range.1 (List.mem_of_mem_filter hk)
  rw [xorAll_map_perm h, map_pos_placeData_messagePosition m inRange, xorReduce_and_of_perm m mask (List.Perm.refl _)]

/-- Each group-parity position of the codeword as the `xor_reduce` of the message under a mask (R36, R38). -/
theorem pos_encodeMessage_parityPosition_eq_xorReduce_and (m mask : Message) {j : Nat} (hj : j < 4)
    (h : (coverage j).Perm (((List.range 11).filter fun k => mask.getLsbD k).map messagePosition)) :
    pos (encodeMessage m) (parityPosition j) = xorReduce (m &&& mask) := by
  rw [pos_encodeMessage_parityPosition m hj, groupParity, xorAll_pos_placeData_eq_xorReduce_and m mask h]

theorem pos_encodeMessage_one (m : Message) : pos (encodeMessage m) 1 = xorReduce (m &&& 0x6D5#11) :=
  pos_encodeMessage_parityPosition_eq_xorReduce_and m 0x6D5#11 (j := 0) (by decide) (by decide)

theorem pos_encodeMessage_two (m : Message) : pos (encodeMessage m) 2 = xorReduce (m &&& 0x5B3#11) :=
  pos_encodeMessage_parityPosition_eq_xorReduce_and m 0x5B3#11 (j := 1) (by decide) (by decide)

theorem pos_encodeMessage_four (m : Message) : pos (encodeMessage m) 4 = xorReduce (m &&& 0x38F#11) :=
  pos_encodeMessage_parityPosition_eq_xorReduce_and m 0x38F#11 (j := 2) (by decide) (by decide)

theorem pos_encodeMessage_eight (m : Message) : pos (encodeMessage m) 8 = xorReduce (m &&& 0x07F#11) :=
  pos_encodeMessage_parityPosition_eq_xorReduce_and m 0x07F#11 (j := 3) (by decide) (by decide)

/-- The XOR of the codeword's data positions is the parity of the message. -/
theorem xorAll_dataPositions_encodeMessage (m : Message) :
    xorAll (dataPositions.map (pos (encodeMessage m))) = xorReduce (m &&& 0x7FF#11) := by
  rw [List.map_congr_left fun p hp => pos_encodeMessage_of_mem_dataPositions m hp]
  exact xorAll_pos_placeData_eq_xorReduce_and m 0x7FF#11 (by decide)

/-- Position 0 as the `xor_reduce` of the message under a mask: the masks of the four group parities and of the data
positions, added. -/
theorem pos_encodeMessage_zero (m : Message) : pos (encodeMessage m) 0 = xorReduce (m &&& 0x769#11) := by
  have split : allPositions.tail.Perm ([1, 2, 4, 8] ++ dataPositions) := by decide
  have masks : 0x769#11 = 0x6D5#11 ^^^ (0x5B3#11 ^^^ (0x38F#11 ^^^ (0x07F#11 ^^^ 0x7FF#11))) := by decide
  have sum : pos (encodeMessage m) 0 = xorAll (([1, 2, 4, 8] ++ dataPositions).map (pos (encodeMessage m))) :=
    (pos_placeOverallParity_zero _).trans (xorAll_map_perm split _)
  rw [sum, masks]
  simp only [List.map_cons, List.cons_append, List.nil_append, xorAll_cons,
    xorAll_dataPositions_encodeMessage, pos_encodeMessage_one, pos_encodeMessage_two, pos_encodeMessage_four,
    pos_encodeMessage_eight, xorReduce_and_xor]

/-! ### The properties of an ENC output (R43) -/

/-- The codeword has an even number of 1 bits: position 0 cancels the parity of the others (R39). -/
theorem popcount_encodeMessage_even (m : Message) : popcount (encodeMessage m) % 2 = 0 := by
  have even : xorReduce (encodeMessage m) = false := by
    rw [xorReduce_eq_xorAll_pos]
    show xorAll (pos (encodeMessage m) 0 :: allPositions.tail.map (pos (encodeMessage m))) = false
    rw [xorAll_cons, encodeMessage, pos_placeOverallParity_zero, Bool.xor_self]
  rw [xorReduce_eq_odd_popcount] at even
  have notOdd := of_decide_eq_false even
  omega

/-- The syndrome's loop over a list of positions, bit by bit: bit `j` is the XOR over the positions whose index has bit
`j` set (R45). -/
theorem syndromeFold_getLsbD (c : Codeword) (l : List Position) (j : Nat) :
    (l.foldl (fun s i => if pos c i then s ^^^ BitVec.ofFin i else s) 0#4).getLsbD j =
      xorAll ((l.filter fun i => i.val.testBit j).map (pos c)) := by
  induction l with
  | nil => simp
  | cons i l ih =>
    have bit : (BitVec.ofFin i : Syndrome).getLsbD j = i.val.testBit j := rfl
    rw [List.foldl_cons, syndromeFold_start, BitVec.getLsbD_xor, ih, List.filter_cons]
    cases hp : pos c i <;> cases hb : i.val.testBit j <;> simp [hp, bit, hb]

theorem syndrome_getLsbD (c : Codeword) (j : Nat) :
    (syndrome c).getLsbD j = xorAll ((allPositions.filter fun i => i.val.testBit j).map (pos c)) :=
  syndromeFold_getLsbD c allPositions j

/-- Bit `j` of the syndrome compares position `2^j` with the parity of the positions it covers. -/
theorem syndrome_getLsbD_eq_parity_xor (c : Codeword) {j : Nat} (hj : j < 4) :
    (syndrome c).getLsbD j = (pos c (parityPosition j) ^^ groupParity c j) := by
  have group : ∀ j < 4,
      (allPositions.filter fun i => i.val.testBit j).Perm (parityPosition j :: coverage j) := by decide
  rw [syndrome_getLsbD, xorAll_map_perm (group j hj), List.map_cons, xorAll_cons, groupParity]

/-- An ENC output has syndrome 0: steps 2 and 3 leave each group parity equal to position `2^j`. -/
theorem syndrome_encodeMessage (m : Message) : syndrome (encodeMessage m) = 0#4 := by
  refine BitVec.eq_of_getLsbD_eq fun j hj => ?_
  have data : groupParity (encodeMessage m) j = groupParity (placeData m) j :=
    groupParity_congr hj fun p hp => pos_encodeMessage_of_mem_dataPositions m hp
  rw [syndrome_getLsbD_eq_parity_xor _ hj, data, pos_encodeMessage_parityPosition m hj, Bool.xor_self,
    BitVec.getLsbD_zero]

/-- The extraction's loop, bit by bit: the last position read is bit 0 (R55). -/
theorem extractFold_getLsbD (c : Codeword) (l : List Position) {k : Nat} (hk : k < 11) (hl : k < l.length) :
    (l.foldl (fun (m : Message) p => (m <<< 1) ||| (BitVec.ofBool (pos c p)).setWidth 11) 0#11).getLsbD k =
      pos c (l.reverse.getD k 0) := by
  induction l using List.reverseRecOn generalizing k with
  | nil => cases hl
  | append_singleton l p ih =>
    rw [List.foldl_append, List.reverse_append]
    cases k with
    | zero => simp
    | succ k =>
      rw [List.length_append] at hl
      have hk' : k < 11 := Nat.lt_of_succ_lt hk
      simpa [hk, hk'] using ih hk' (Nat.lt_of_succ_lt_succ hl)

/-- Extraction reads message bit `k` at its position (R55). -/
theorem extract_getLsbD (c : Codeword) {k : Nat} (hk : k < 11) :
    (extract c).getLsbD k = pos c (messagePosition k) := by
  have index : ∀ k < 11, dataPositions.reverse.getD k 0 = messagePosition k := by decide
  rw [← index k hk]
  exact extractFold_getLsbD c dataPositions hk hk

/-- Extraction undoes ENC: both use the same position for each message bit. -/
theorem extract_encodeMessage (m : Message) : extract (encodeMessage m) = m :=
  BitVec.eq_of_getLsbD_eq fun _ hk => (extract_getLsbD _ hk).trans (pos_encodeMessage_messagePosition m hk)

theorem encodeMessage_injective : Function.Injective encodeMessage :=
  Function.LeftInverse.injective extract_encodeMessage

/-- ENC(0) = 0: each of the three steps gives 0. -/
theorem encodeMessage_zero : encodeMessage 0#11 = 0#16 := by
  have data : placeData 0#11 = 0#16 := by decide
  have group : placeGroupParity 0#16 = 0#16 := by rw [placeGroupParity_eq]; decide
  have overall : placeOverallParity 0#16 = 0#16 := by decide
  rw [encodeMessage, data, group, overall]

/-! ### The operation on the ports -/

/-- A value that fits `msg_i` is the message of that value (R42). -/
theorem exec_enc_toNat (m : Message) (s : State) :
    exec (.enc m.toNat) s = .next (s.driveEncoder (encoderPorts m)) := by
  rw [exec_enc_within (Nat.le_of_lt_succ m.isLt), BitVec.ofNat_toNat, BitVec.setWidth_eq]

/-- Settles O13: the data bits are read at their positions, each group parity under its mask, and position 0 under the
sum of the masks. -/
theorem encGivesClosedFormCodeword : Obligations.EncGivesClosedFormCodeword := by
  unfold Obligations.EncGivesClosedFormCodeword
  intro m s
  have bit : ∀ k < 11, (encodeMessage m).getLsbD (15 - (messagePosition k).val) = m.getLsbD k := fun k hk =>
    pos_encodeMessage_messagePosition m hk
  refine ⟨_, encodeMessage m, exec_enc_toNat m s, rfl, bit 10 (by decide), ?middle, ?low, pos_encodeMessage_one m,
    pos_encodeMessage_two m, pos_encodeMessage_four m, pos_encodeMessage_eight m, pos_encodeMessage_zero m⟩
  case middle =>
    refine BitVec.eq_of_getLsbD_eq fun i hi => ?_
    have place : ∀ i < 3, 15 - (messagePosition (7 + i)).val = 8 + i := by decide
    have read := bit (7 + i) (by omega)
    rw [place i hi] at read
    simpa [hi] using read
  case low =>
    refine BitVec.eq_of_getLsbD_eq fun i hi => ?_
    have place : ∀ i < 7, 15 - (messagePosition i).val = i := by decide
    have read := bit i (by omega)
    rw [place i hi] at read
    simpa [hi] using read

/-- Settles O14: step 1 writes the message bits and nothing else, and steps 2 and 3 do not write where it wrote. -/
theorem encPlacesMessageBits : Obligations.EncPlacesMessageBits := by
  unfold Obligations.EncPlacesMessageBits
  intro m s
  have unwritten : ∀ p ∈ ([0, 1, 2, 4, 8] : List Position), p ∉ dataPositions := by decide
  exact ⟨_, encodeMessage m, exec_enc_toNat m s, rfl,
    fun k hk => ⟨pos_placeData_messagePosition m hk, pos_encodeMessage_messagePosition m hk⟩,
    fun p hp => pos_placeData_of_notMem m (unwritten p hp)⟩

/-- Settles O15: the covered positions of each group are the set bits of its mask. -/
theorem encGroupParityFollowsMasks : Obligations.EncGroupParityFollowsMasks := by
  unfold Obligations.EncGroupParityFollowsMasks
  intro m s
  refine ⟨_, encodeMessage m, exec_enc_toNat m s, rfl, ?one, ?two, ?four, ?eight⟩
  case one =>
    exact (pos_encodeMessage_parityPosition m (j := 0) (by decide)).trans
      (groupParity_eq_xorReduce_and _ 0x1555#16 (by decide))
  case two =>
    exact (pos_encodeMessage_parityPosition m (j := 1) (by decide)).trans
      (groupParity_eq_xorReduce_and _ 0x1333#16 (by decide))
  case four =>
    exact (pos_encodeMessage_parityPosition m (j := 2) (by decide)).trans
      (groupParity_eq_xorReduce_and _ 0x070F#16 (by decide))
  case eight =>
    exact (pos_encodeMessage_parityPosition m (j := 3) (by decide)).trans
      (groupParity_eq_xorReduce_and _ 0x007F#16 (by decide))

/-- Settles O16: step 3 writes position 0 alone, with the parity of the others. -/
theorem encOverallParityMakesPopcountEven : Obligations.EncOverallParityMakesPopcountEven := by
  unfold Obligations.EncOverallParityMakesPopcountEven
  intro m s
  exact ⟨_, encodeMessage m, exec_enc_toNat m s, rfl, fun p hp => pos_placeOverallParity_of_ne _ hp,
    (pos_placeOverallParity_zero _).trans (xorReduce_low_bits_eq_xorAll_pos _).symm, popcount_encodeMessage_even m⟩

/-- Settles O19: ENC is injective because extraction undoes it. -/
theorem encOutputProperties : Obligations.EncOutputProperties := by
  unfold Obligations.EncOutputProperties
  exact ⟨fun m => ⟨popcount_encodeMessage_even m, syndrome_encodeMessage m, extract_encodeMessage m⟩,
    fun _ _ h => encodeMessage_injective h, encodeMessage_zero⟩

/-- Settles O17: every 11-bit message is in ENC's range. -/
theorem encNeverFails : Obligations.EncNeverFails := by
  unfold Obligations.EncNeverFails
  exact fun m s => ⟨_, encodeMessage m, exec_enc_toNat m s, rfl⟩

/-- Settles O18: above 2047 the operand check faults; up to 2047 the message keeps the value. -/
theorem encAboveRangeFaults : Obligations.EncAboveRangeFaults := by
  unfold Obligations.EncAboveRangeFaults
  intro v s
  refine ⟨fun above => exec_enc_above above s, fun within => ?_⟩
  have value : (BitVec.ofNat 11 v).toNat = v := Nat.mod_eq_of_lt (Nat.lt_succ_of_le within)
  exact ⟨_, BitVec.ofNat 11 v, _, exec_enc_within within s, rfl, value⟩

end Sys2Proof.Machine
end

section
/-! PROOFS. The obligations of 41_syndrome_decoder.md: the syndrome as masked XORs and as the XOR of the set positions,
and what flipped positions add to the signature of an ENC output. -/

namespace Sys2Proof.Machine

/-! ### The syndrome and the total parity of any word (R45, R46) -/

/-- Bit `j` of the syndrome is the `xor_reduce` of the word under the mask of the positions whose index has
bit `j` set. -/
theorem syndrome_getLsbD_eq_xorReduce_and (c mask : Codeword) {j : Nat}
    (h : ((allPositions.filter fun p => p.val.testBit j).map fun p => 15 - p.val).Perm
      ((List.range 16).filter fun i => mask.getLsbD i)) :
    (syndrome c).getLsbD j = xorReduce (c &&& mask) := by
  rw [syndrome_getLsbD, xorReduce_and_of_perm c mask h, map_pos_eq_map_getLsbD]

/-- The syndrome's loop over a list of positions is the XOR of those that are set, as integers. -/
theorem syndromeFold_toNat (c : Codeword) (l : List Position) :
    (l.foldl (fun s i => if pos c i then s ^^^ BitVec.ofFin i else s) 0#4).toNat =
      ((l.filter (pos c)).map Fin.val).foldr (fun a b => a ^^^ b) 0 := by
  induction l with
  | nil => rfl
  | cons i l ih =>
    rw [List.foldl_cons, syndromeFold_start, BitVec.toNat_xor, ih]
    cases h : pos c i <;> simp [h]

theorem syndrome_toNat (c : Codeword) :
    (syndrome c).toNat = ((allPositions.filter (pos c)).map Fin.val).foldr (fun a b => a ^^^ b) 0 :=
  syndromeFold_toNat c allPositions

theorem totalParity_eq_odd_popcount (c : Codeword) : totalParity c = decide (popcount c % 2 = 1) :=
  xorReduce_eq_odd_popcount c

/-! ### Flipped positions (R47, R48) -/

/-- A flip adds its position to the syndrome. -/
@[simp] theorem syndrome_flip (c : Codeword) (p : Position) : syndrome (flip c p) = syndrome c ^^^ BitVec.ofFin p := by
  rw [flip, syndrome_xor, syndrome_positionBit]

/-- A flip changes the total parity. -/
@[simp] theorem totalParity_flip (c : Codeword) (p : Position) : totalParity (flip c p) = !totalParity c := by
  rw [flip, totalParity_xor, totalParity_positionBit, Bool.xor_true]

/-- An ENC output has even parity (R43). -/
theorem totalParity_encodeMessage (m : Message) : totalParity (encodeMessage m) = false := by
  rw [totalParity_eq_odd_popcount, popcount_encodeMessage_even]
  rfl

/-- A flipped position is the whole syndrome of an ENC output. -/
theorem syndrome_flip_encodeMessage (m : Message) (p : Position) :
    syndrome (flip (encodeMessage m) p) = BitVec.ofFin p := by
  rw [syndrome_flip, syndrome_encodeMessage, BitVec.zero_xor]

/-- The 4-bit word of a position's index is the position itself (R29). -/
theorem ofNat_position_eq_ofFin (p : Position) : BitVec.ofNat 4 p.val = BitVec.ofFin p :=
  BitVec.ofFin_eq_ofNat.symm

/-- Two positions, as syndromes, cancel only when they are the same. -/
theorem ofFin_xor_ofFin_ne_zero {p q : Position} (h : p ≠ q) :
    (BitVec.ofFin p ^^^ BitVec.ofFin q : Syndrome) ≠ 0#4 :=
  fun cancel => h (congrArg BitVec.toFin (BitVec.xor_eq_zero_iff.1 cancel))

/-! ### The operation on the ports -/

/-- Settles O21: the positions whose index has bit `j` set are the set bits of mask `j`. -/
theorem synFollowsMasks : Obligations.SynFollowsMasks := by
  unfold Obligations.SynFollowsMasks
  intro c s
  refine ⟨_, syndrome c, totalParity c, exec_syn c s, rfl, ?bit0, ?bit1, ?bit2, ?bit3⟩
  case bit0 => exact syndrome_getLsbD_eq_xorReduce_and c 0x5555#16 (by decide)
  case bit1 => exact syndrome_getLsbD_eq_xorReduce_and c 0x3333#16 (by decide)
  case bit2 => exact syndrome_getLsbD_eq_xorReduce_and c 0x0F0F#16 (by decide)
  case bit3 => exact syndrome_getLsbD_eq_xorReduce_and c 0x00FF#16 (by decide)

/-- Settles O22, by induction over the positions the syndrome's loop reads. -/
theorem synXorsSetPositions : Obligations.SynXorsSetPositions := by
  unfold Obligations.SynXorsSetPositions
  exact fun c s => ⟨_, syndrome c, totalParity c, exec_syn c s, rfl, syndrome_toNat c⟩

/-- Settles O23: `xor_reduce` of the word is the parity of its popcount. -/
theorem synParityIsOddCount : Obligations.SynParityIsOddCount := by
  unfold Obligations.SynParityIsOddCount
  intro c s
  refine ⟨_, syndrome c, exec_syn c s, ?_⟩
  rw [State.driveSyndromeDecoder_syndromeDecoder, syndromeDecoderPorts, totalParity_eq_odd_popcount]

/-- Settles O24: an ENC output has syndrome 0 and even parity, and the flip adds its position and one 1 bit. -/
theorem synSingleErrorSignature : Obligations.SynSingleErrorSignature := by
  unfold Obligations.SynSingleErrorSignature
  intro m e s
  refine ⟨_, exec_syn _ s, congrArg some ?position, congrArg some ?odd⟩
  case position => rw [syndrome_flip_encodeMessage, ofNat_position_eq_ofFin]
  case odd => rw [totalParity_flip, totalParity_encodeMessage, Bool.not_false]

/-- Settles O25: the second flip adds its position to the first, which differs from it, and restores the parity. -/
theorem synDoubleErrorSignature : Obligations.SynDoubleErrorSignature := by
  unfold Obligations.SynDoubleErrorSignature
  intro m e f s distinct
  rw [ofNat_position_eq_ofFin, ofNat_position_eq_ofFin]
  refine ⟨_, exec_syn _ s, congrArg some ?positions, congrArg some ?even, ofFin_xor_ofFin_ne_zero distinct⟩
  case positions => rw [syndrome_flip, syndrome_flip_encodeMessage]
  case even => rw [totalParity_flip, totalParity_flip, totalParity_encodeMessage, Bool.not_false, Bool.not_true]

/-- Settles O26: SYN has no precondition and drives both outputs. -/
theorem synNeverFails : Obligations.SynNeverFails := by
  unfold Obligations.SynNeverFails
  exact fun c s => ⟨_, syndrome c, totalParity c, exec_syn c s, rfl⟩

end Sys2Proof.Machine
end

section
/-! PROOFS. The obligations of 42_error_corrector.md: what a flip does to the extracted message, which words are ENC
outputs, the corrector's ports in each of R50's four rows, and with them what DEC makes of any received word. -/

namespace Sys2Proof.Machine

/-! ### A flipped position (R53) -/

/-- A flip inverts its own position and no other. -/
@[simp] theorem pos_flip (c : Codeword) (p q : Position) :
    pos (flip c p) q = if q = p then !pos c q else pos c q := by
  rw [flip, pos_xor, pos_positionBit]
  by_cases h : q = p
  · simp [h]
  · simp [h, Ne.symm h]

/-- Flipping a position twice restores the word. -/
@[simp] theorem flip_flip (c : Codeword) (p : Position) : flip (flip c p) p = c := by
  rw [flip, flip, BitVec.xor_assoc, BitVec.xor_self, BitVec.xor_zero]

/-- Position `p` is integer bit `15 - p` (R5): the flip in integer bits. -/
theorem getLsbD_flip (c : Codeword) (p : Position) {b : Nat} (hb : b < 16) :
    (flip c p).getLsbD b = if b = 15 - p.val then !c.getLsbD b else c.getLsbD b := by
  have bit : ∀ w : Codeword, pos w ⟨15 - b, by omega⟩ = w.getLsbD b := fun w =>
    congrArg w.getLsbD (show 15 - (15 - b) = b by omega)
  have same : (⟨15 - b, by omega⟩ : Position) = p ↔ b = 15 - p.val := by rw [Fin.ext_iff]; dsimp only; omega
  rw [← bit, pos_flip, bit]
  simp only [same]

/-! ### Extraction (R55) -/

/-- Extraction reads the data positions and nothing else. -/
theorem extract_congr {a b : Codeword} (h : ∀ p ∈ dataPositions, pos a p = pos b p) : extract a = extract b :=
  BitVec.eq_of_getLsbD_eq fun _ hk => by
    rw [extract_getLsbD _ hk, extract_getLsbD _ hk, h _ (messagePosition_mem_dataPositions hk)]

/-- Writing a position that holds no data changes no message bit. -/
theorem extract_setPos_of_notMem (c : Codeword) {p : Position} (hp : p ∉ dataPositions) (b : Bool) :
    extract (setPos c p b) = extract c :=
  extract_congr fun q hq => by rw [pos_setPos, if_neg fun e : p = q => hp (e ▸ hq)]

/-- Flipping a position that holds no data changes no message bit. -/
theorem extract_flip_of_notMem (c : Codeword) {p : Position} (hp : p ∉ dataPositions) :
    extract (flip c p) = extract c :=
  extract_congr fun q hq => by rw [pos_flip, if_neg fun e : q = p => hp (e ▸ hq)]

/-- Flipping the position of message bit `k` inverts message bit `k` alone. -/
theorem extract_flip_messagePosition (c : Codeword) {k : Nat} (hk : k < 11) :
    extract (flip c (messagePosition k)) = extract c ^^^ (1#11 <<< k) := by
  refine BitVec.eq_of_getLsbD_eq fun i hi => ?_
  have same : ∀ i < 11, ∀ k < 11, (messagePosition i = messagePosition k ↔ (1#11 <<< k).getLsbD i = true) := by
    decide
  rw [BitVec.getLsbD_xor, extract_getLsbD _ hi, extract_getLsbD _ hi, pos_flip]
  simp only [same i hi k hk]
  cases (1#11 <<< k).getLsbD i <;> simp

/-- The extracted message as three slices of the word. -/
theorem extract_eq_slices (c : Codeword) :
    extract c = (c.extractLsb' 12 1 ++ c.extractLsb' 8 3 ++ c.extractLsb' 0 7 : BitVec (1 + 3 + 7)) := by
  refine BitVec.eq_of_getLsbD_eq fun k hk => ?_
  have place : ∀ k < 11, 15 - (messagePosition k).val =
      if k < 7 then 0 + k else if k - 7 < 3 then 8 + (k - 7) else 12 + (k - 7 - 3) := by decide
  rw [extract_getLsbD c hk, pos, place k hk, BitVec.getLsbD_append, BitVec.getLsbD_append]
  simp only [BitVec.getLsbD_extractLsb']
  by_cases low : k < 7
  · simp [low]
  · by_cases middle : k - 7 < 3
    · simp [low, middle]
    · have top : k - 7 - 3 < 1 := by omega
      simp [low, middle, top]

/-! ### Which words are ENC outputs (R60) -/

/-- Every position is position 0, a group-parity position or a data position (R6). -/
theorem position_cases (p : Position) : p = 0 ∨ (∃ j < 4, p = parityPosition j) ∨ p ∈ dataPositions := by
  revert p; decide

/-- The total parity compares position 0 with the parity of the others. -/
theorem totalParity_eq_parity_xor (c : Codeword) :
    totalParity c = (pos c 0 ^^ xorAll (allPositions.tail.map (pos c))) := by
  rw [totalParity, xorReduce_eq_xorAll_pos]
  exact xorAll_cons _ _

/-- A word is determined by its data bits, its syndrome and its total parity: these fix the group parities, then
position 0. -/
theorem codeword_eq_of_data_syndrome_parity {a b : Codeword} (data : ∀ p ∈ dataPositions, pos a p = pos b p)
    (syn : syndrome a = syndrome b) (par : totalParity a = totalParity b) : a = b := by
  have group : ∀ j < 4, pos a (parityPosition j) = pos b (parityPosition j) := fun j hj => by
    have bit := congrArg (fun y => y.getLsbD j) syn
    simp only [syndrome_getLsbD_eq_parity_xor _ hj, groupParity_congr hj data] at bit
    exact Bool.xor_left_inj.1 bit
  have others : ∀ p, p ≠ 0 → pos a p = pos b p := fun p hp => by
    obtain rfl | ⟨j, hj, rfl⟩ | hd := position_cases p
    · exact absurd rfl hp
    · exact group j hj
    · exact data p hd
  have tail : allPositions.tail.map (pos a) = allPositions.tail.map (pos b) :=
    List.map_congr_left fun p hp => others p (by revert hp p; decide)
  refine codeword_ext a b fun p => ?_
  by_cases hp : p = 0
  · rw [totalParity_eq_parity_xor, totalParity_eq_parity_xor, tail] at par
    exact hp ▸ Bool.xor_left_inj.1 par
  · exact others p hp

/-- The valid codewords are the words with syndrome 0 and even parity. -/
theorem validCodeword_iff (c : Codeword) : validCodeword c ↔ syndrome c = 0#4 ∧ totalParity c = false := by
  constructor
  · rintro ⟨m, rfl⟩
    exact ⟨syndrome_encodeMessage m, totalParity_encodeMessage m⟩
  · rintro ⟨syn, par⟩
    refine ⟨extract c, codeword_eq_of_data_syndrome_parity (fun p hp => ?_) ?_ ?_⟩
    · rw [dataPositions_eq_map_messagePosition] at hp
      obtain ⟨k, hk, rfl⟩ := List.mem_map.1 hp
      have hk : k < 11 := List.mem_range.1 (List.mem_reverse.1 hk)
      rw [pos_encodeMessage_messagePosition _ hk, extract_getLsbD c hk]
    · rw [syn, syndrome_encodeMessage]
    · rw [par, totalParity_encodeMessage]

/-- Flipping the position that the syndrome names makes any word of odd parity a valid codeword. -/
theorem validCodeword_flip_syndrome {c : Codeword} (odd : totalParity c = true) :
    validCodeword (flip c (syndrome c).toFin) := by
  refine (validCodeword_iff _).2 ⟨?_, ?_⟩
  · rw [syndrome_flip]
    exact BitVec.xor_self
  · rw [totalParity_flip, odd, Bool.not_true]

/-! ### The corrector's ports, row by row (R51 to R54) -/

section Rows
variable (c : Codeword) {y : Syndrome}

theorem correctorPorts_noError :
    correctorPorts c 0#4 false = correctorValues c 0#4 false c (extract c) false false := rfl

theorem correctorPorts_degenerate :
    correctorPorts c 0#4 true = correctorValues c 0#4 true c (extract c) false false := rfl

theorem correctorPorts_singleError (h : y ≠ 0#4) :
    correctorPorts c y true = correctorValues c y true (flip c y.toFin) (extract (flip c y.toFin)) true false := by
  rw [correctorPorts, row_nonzero_odd h]
  rfl

theorem correctorPorts_doubleError (h : y ≠ 0#4) :
    correctorPorts c y false = correctorValues c y false c 0#11 false true := by
  rw [correctorPorts, row_nonzero_even h]
  rfl

end Rows

/-- Odd parity is never uncorrectable (rows 2 and 3). -/
theorem uncorrectable_row_odd (y : Syndrome) : uncorrectable (row y true) = false := by
  by_cases h : y = 0#4
  · rw [h, row_zero_odd]; rfl
  · rw [row_nonzero_odd h]; rfl

/-- Even parity is never corrected (rows 1 and 4). -/
theorem singleErr_row_even (y : Syndrome) : singleErr (row y false) = false := by
  by_cases h : y = 0#4
  · rw [h, row_zero_even]; rfl
  · rw [row_nonzero_even h]; rfl

/-- Which bits the corrector flips does not depend on the word. -/
theorem xor_correctedWord (c d : Codeword) (y : Syndrome) (r : Row) :
    c ^^^ correctedWord c y r = d ^^^ correctedWord d y r := by
  have mask : ∀ w : Codeword, w ^^^ flip w y.toFin = positionBit y.toFin := fun w => by
    rw [flip, ← BitVec.xor_assoc, BitVec.xor_self, BitVec.zero_xor]
  cases r with
  | singleError => exact (mask c).trans (mask d).symm
  | noError | degenerate | doubleError => exact BitVec.xor_self.trans BitVec.xor_self.symm

/-! ### DEC on the corrector's ports (R58) -/

/-- DEC puts the word with its own syndrome and parity on the corrector. -/
theorem exec_dec_corrector {c : Codeword} {y : Syndrome} {p : Bool} (syn : syndrome c = y) (par : totalParity c = p)
    (s : State) : ∃ t, exec (.dec c) s = .next t ∧ t.corrector = correctorPorts c y p := by
  subst syn par
  exact ⟨_, exec_dec c s, rfl⟩

/-- DEC of a valid codeword takes row 1. -/
theorem exec_dec_validCodeword {c : Codeword} (valid : validCodeword c) (s : State) :
    ∃ t, exec (.dec c) s = .next t ∧ t.corrector = correctorValues c 0#4 false c (extract c) false false := by
  obtain ⟨syn, par⟩ := (validCodeword_iff c).1 valid
  exact exec_dec_corrector syn par s

/-- All that DEC can do, one row each. -/
theorem exec_dec_cases (c : Codeword) (s : State) : ∃ t, exec (.dec c) s = .next t ∧
    (t.corrector = correctorValues c 0#4 false c (extract c) false false ∨
      t.corrector = correctorValues c 0#4 true c (extract c) false false ∨
      (totalParity c = true ∧ t.corrector = correctorValues c (syndrome c) true (flip c (syndrome c).toFin)
        (extract (flip c (syndrome c).toFin)) true false) ∨
      t.corrector = correctorValues c (syndrome c) false c 0#11 false true) := by
  obtain ⟨t, run, ports⟩ := exec_dec_corrector (c := c) rfl rfl s
  refine ⟨t, run, ?_⟩
  rw [ports]
  obtain ⟨-, syn, par⟩ | ⟨-, syn, par⟩ | ⟨-, syn, par⟩ | ⟨-, syn, par⟩ := row_cases (syndrome c) (totalParity c)
  · rw [syn, par]; exact .inl rfl
  · rw [syn, par]; exact .inr (.inl rfl)
  · rw [par]; exact .inr (.inr (.inl ⟨rfl, correctorPorts_singleError c syn⟩))
  · rw [par]; exact .inr (.inr (.inr (correctorPorts_doubleError c syn)))

/-! ### The obligations on COR -/

/-- Settles O27: row 1. -/
theorem corNoErrorRow : Obligations.CorNoErrorRow := by
  unfold Obligations.CorNoErrorRow
  exact fun c s => ⟨_, exec_cor c 0#4 false s, correctorPorts_noError c, rfl⟩

/-- Settles O28: row 2 passes the word on, so its popcount is the word's own. -/
theorem corDegenerateRow : Obligations.CorDegenerateRow := by
  unfold Obligations.CorDegenerateRow
  refine fun c s => ⟨_, exec_cor c 0#4 true s, correctorPorts_degenerate c, rfl, fun odd => ⟨c, rfl, ?_⟩⟩
  rw [totalParity_eq_odd_popcount] at odd
  exact of_decide_eq_true odd

/-- Settles O29: row 3 flips the position `y`; a parity position is not read, a data position is read at one bit. -/
theorem corSingleErrorRow : Obligations.CorSingleErrorRow := by
  unfold Obligations.CorSingleErrorRow
  intro c y s hy
  have ports := correctorPorts_singleError c hy
  refine ⟨_, flip c y.toFin, extract (flip c y.toFin), exec_cor c y true s, ports,
    fun b hb => getLsbD_flip c y.toFin hb, rfl, congrArg CorrectorPorts.outcome ports, fun parity => ?_, fun k hk data => ?_⟩
  · have noData : ∀ p : Position, p.val ∈ [1, 2, 4, 8] → p ∉ dataPositions := by decide
    exact extract_flip_of_notMem c (noData y.toFin parity)
  · have index : ∀ k < 11,
        (messagePosition k).val = [3, 5, 6, 7, 9, 10, 11, 12, 13, 14, 15].getD (10 - k) 0 := by decide
    have position : y.toFin = messagePosition k := Fin.ext (data.trans (index k hk).symm)
    rw [position, extract_flip_messagePosition c hk]

/-- Settles O30: row 4. -/
theorem corDoubleErrorRow : Obligations.CorDoubleErrorRow := by
  unfold Obligations.CorDoubleErrorRow
  intro c y s hy
  have ports := correctorPorts_doubleError c hy
  exact ⟨_, exec_cor c y false s, ports, congrArg CorrectorPorts.outcome ports⟩

/-- Settles O32: `outcomeOf` looks at the tag first. -/
theorem outcomeFollowsTagAlone : Obligations.OutcomeFollowsTagAlone := by
  unfold Obligations.OutcomeFollowsTagAlone
  intro c y p s
  refine ⟨_, _, _, _, exec_cor c y p s, rfl, rfl, correctorPorts_outcome c y p, fun tag => ?_, fun tag => ?_⟩
  · rw [tag]; rfl
  · rw [tag]; rfl

/-- Settles O33: the row depends on the given syndrome and parity alone, and the flipped bits on the row. -/
theorem corTrustsItsInputs : Obligations.CorTrustsItsInputs := by
  unfold Obligations.CorTrustsItsInputs
  exact fun c d y p s => ⟨_, _, _, _, _, _, _, _, exec_cor c y p s, rfl, exec_cor d y p s, rfl,
    xor_correctedWord c d y (row y p)⟩

/-- Settles O34: each message bit is read at its data position, which is a bit of one of the three slices. -/
theorem extractReadsDataPositions : Obligations.ExtractReadsDataPositions := by
  unfold Obligations.ExtractReadsDataPositions
  have noData : ∀ p ∈ ([0, 1, 2, 4, 8] : List Position), p ∉ dataPositions := by decide
  exact fun c => ⟨extract_eq_slices c, fun k hk => extract_getLsbD c hk,
    fun p hp b => extract_setPos_of_notMem c (noData p hp) b⟩

/-- Settles O35: the corrector's driven ports carry an outcome. -/
theorem corAndDecNeverFail : Obligations.CorAndDecNeverFail := by
  unfold Obligations.CorAndDecNeverFail
  exact ⟨fun c y p s => ⟨_, _, exec_cor c y p s, correctorPorts_outcome c y p⟩,
    fun c s => ⟨_, _, exec_dec c s, correctorPorts_outcome c (syndrome c) (totalParity c)⟩⟩

/-! ### The obligations on DEC -/

/-- Settles O36: DEC drives the two blocks as SYN and COR do. -/
theorem decIsSynThenCor : Obligations.DecIsSynThenCor := by
  unfold Obligations.DecIsSynThenCor
  exact fun c s => ⟨_, _, _, syndrome c, totalParity c, exec_syn c s, rfl, rfl,
    exec_cor c (syndrome c) (totalParity c) s, exec_dec c s, rfl, rfl⟩

/-- Settles O37: the signature of each error pattern picks the row, and a flip undoes a flip. -/
theorem secdedGuarantee : Obligations.SecdedGuarantee := by
  unfold Obligations.SecdedGuarantee
  intro m s
  have oneError : ∀ e : Position, totalParity (flip (encodeMessage m) e) = true := fun e => by
    rw [totalParity_flip, totalParity_encodeMessage, Bool.not_false]
  refine ⟨?none, ?zero, fun e he => ?single, fun e f hef => ?double⟩
  case none =>
    obtain ⟨t, run, ports⟩ := exec_dec_validCodeword ⟨m, rfl⟩ s
    refine ⟨t, run, ?_⟩
    rw [ports, extract_encodeMessage]
    exact ⟨rfl, rfl, rfl⟩
  case zero =>
    obtain ⟨t, run, ports⟩ := exec_dec_corrector (y := 0#4) (syndrome_flip_encodeMessage m 0) (oneError 0) s
    have unread : extract (flip (encodeMessage m) 0) = m :=
      (extract_flip_of_notMem _ (by decide)).trans (extract_encodeMessage m)
    refine ⟨t, run, ?_⟩
    rw [ports, correctorPorts_degenerate, unread]
    exact ⟨rfl, rfl, rfl⟩
  case single =>
    obtain ⟨t, run, ports⟩ := exec_dec_corrector (syndrome_flip_encodeMessage m e) (oneError e) s
    have nonzero : (BitVec.ofFin e : Syndrome) ≠ 0#4 := fun h => he (congrArg BitVec.toFin h)
    have restored : flip (flip (encodeMessage m) e) (BitVec.ofFin e : Syndrome).toFin = encodeMessage m :=
      flip_flip (encodeMessage m) e
    refine ⟨t, run, ?_⟩
    rw [ports, correctorPorts_singleError _ nonzero, restored, extract_encodeMessage]
    exact ⟨rfl, rfl, rfl⟩
  case double =>
    have syn : syndrome (flip (flip (encodeMessage m) e) f) = BitVec.ofFin e ^^^ BitVec.ofFin f := by
      rw [syndrome_flip, syndrome_flip_encodeMessage]
    have even : totalParity (flip (flip (encodeMessage m) e) f) = false := by
      rw [totalParity_flip, oneError, Bool.not_true]
    obtain ⟨t, run, ports⟩ := exec_dec_corrector syn even s
    refine ⟨t, run, ?_⟩
    rw [ports, correctorPorts_doubleError _ (ofFin_xor_ofFin_ne_zero hef)]
    rfl

/-- Settles O38: DEC gives the corrector the word's own syndrome and parity. -/
theorem noErrorRowAcceptsExactlyCodewords : Obligations.NoErrorRowAcceptsExactlyCodewords := by
  unfold Obligations.NoErrorRowAcceptsExactlyCodewords
  refine fun c s => ⟨_, exec_dec c s, ?_⟩
  rw [validCodeword_iff, ← Option.some_inj (a := syndrome c), ← Option.some_inj (a := totalParity c)]
  rfl

/-- Settles O39: only row 3 flips a bit, and there the parity is odd. -/
theorem correctionYieldsCodeword : Obligations.CorrectionYieldsCodeword := by
  unfold Obligations.CorrectionYieldsCodeword
  intro c s
  obtain ⟨t, run, ports | ports | ⟨odd, ports⟩ | ports⟩ := exec_dec_cases c s
  · refine ⟨t, c, run, congrArg CorrectorPorts.cw_corr_o ports, fun flagged => ?_⟩
    rw [ports] at flagged
    cases flagged
  · refine ⟨t, c, run, congrArg CorrectorPorts.cw_corr_o ports, fun flagged => ?_⟩
    rw [ports] at flagged
    cases flagged
  · exact ⟨t, _, run, congrArg CorrectorPorts.cw_corr_o ports, fun _ => validCodeword_flip_syndrome odd⟩
  · refine ⟨t, c, run, congrArg CorrectorPorts.cw_corr_o ports, fun flagged => ?_⟩
    rw [ports] at flagged
    cases flagged

/-- Settles O40: an ENC output has even parity, so the word has the parity of the pattern, which rules out two rows. -/
theorem errorWeightParityDecidesRows : Obligations.ErrorWeightParityDecidesRows := by
  unfold Obligations.ErrorWeightParityDecidesRows
  intro m e s
  have parity : totalParity (encodeMessage m ^^^ e) = decide (popcount e % 2 = 1) := by
    rw [totalParity_xor, totalParity_encodeMessage, Bool.false_xor, totalParity_eq_odd_popcount]
  obtain ⟨t, run, ports⟩ := exec_dec_corrector rfl parity s
  refine ⟨t, run, congrArg CorrectorPorts.parity_odd_i ports, fun odd => ?_, fun even => ?_⟩
  · rw [ports, decide_eq_true odd]
    exact congrArg some (uncorrectable_row_odd _)
  · rw [ports, decide_eq_false (show ¬popcount e % 2 = 1 by omega)]
    exact congrArg some (singleErr_row_even _)

/-- Settles O41: the three positions cancel in the syndrome and leave the parity odd, which is row 2; each inverts a
message bit. -/
theorem tripleErrorCanGoUnnoticed : Obligations.TripleErrorCanGoUnnoticed := by
  unfold Obligations.TripleErrorCanGoUnnoticed
  intro s
  have syn : syndrome (flip (flip (flip (encodeMessage 31#11) 3) 5) 6) = 0#4 := by
    rw [syndrome_flip, syndrome_flip, syndrome_flip_encodeMessage]
    decide
  have odd : totalParity (flip (flip (flip (encodeMessage 31#11) 3) 5) 6) = true := by
    rw [totalParity_flip, totalParity_flip, totalParity_flip, totalParity_encodeMessage]
    rfl
  have message : extract (flip (flip (flip (encodeMessage 31#11) 3) 5) 6) = 1823#11 := by
    show extract (flip (flip (flip (encodeMessage 31#11) (messagePosition 10)) (messagePosition 9))
      (messagePosition 8)) = 1823#11
    rw [extract_flip_messagePosition _ (by decide), extract_flip_messagePosition _ (by decide),
      extract_flip_messagePosition _ (by decide), extract_encodeMessage]
    decide
  obtain ⟨t, run, ports⟩ := exec_dec_corrector syn odd s
  refine ⟨t, run, ?_⟩
  rw [ports, correctorPorts_degenerate, message]
  exact ⟨rfl, rfl⟩

/-- Settles O42: rows 1 and 2 pass the word on, so the second decode is the first; row 3 gives a valid codeword, which row 1
takes. -/
theorem redecodingIsStable : Obligations.RedecodingIsStable := by
  unfold Obligations.RedecodingIsStable
  intro c s
  obtain ⟨t, run, ports | ports | ⟨odd, ports⟩ | ports⟩ := exec_dec_cases c s
  · refine ⟨t, c, run, congrArg CorrectorPorts.cw_corr_o ports, fun _ => ⟨t, run, rfl, ?_⟩⟩
    rw [ports]
    exact ⟨rfl, rfl, rfl⟩
  · refine ⟨t, c, run, congrArg CorrectorPorts.cw_corr_o ports, fun _ => ⟨t, run, rfl, ?_⟩⟩
    rw [ports]
    exact ⟨rfl, rfl, rfl⟩
  · obtain ⟨u, again, ports'⟩ := exec_dec_validCodeword (validCodeword_flip_syndrome odd) s
    refine ⟨t, _, run, congrArg CorrectorPorts.cw_corr_o ports, fun _ => ⟨u, again, ?_⟩⟩
    rw [ports, ports']
    exact ⟨rfl, rfl, rfl, rfl⟩
  · refine ⟨t, c, run, congrArg CorrectorPorts.cw_corr_o ports, fun correctable => ?_⟩
    rw [ports] at correctable
    cases correctable

end Sys2Proof.Machine
end

section
/-! PROOFS. The obligations of 43_collection_adapter.md: FLIP, what ENCODE_ALL's loop makes of a sequence, and the verdict
that FIND reaches, in sequence and in parallel. -/

namespace Sys2Proof.Machine

/-! ### FLIP (R68) -/

/-- Settles O4: the formula is the definition's own, read at each position, and a word cancels itself under XOR. -/
theorem flipInvertsOnePosition : Obligations.FlipInvertsOnePosition := by
  unfold Obligations.FlipInvertsOnePosition
  exact fun c p => ⟨rfl, pos_flip c p, flip_flip c p⟩

/-! ### ENCODE_ALL (R64): a pass at the boundary between the replaced elements and the remaining ones -/

/-- What ENCODE_ALL puts in the place of the message `v`. -/
def encodedElement (v : Nat) : Nat := (encodeMessage (BitVec.ofNat 11 v)).toNat

section EncodeAll
variable {h : HostState} {seq : Nat}

/-- The element that the pass after `done` reads. -/
theorem element_boundary {done rest : List Nat} {v : Nat} (hs : h.sequences[seq]? = some (done ++ v :: rest)) :
    h.element seq done.length = some v := by
  rw [HostState.element_eq hs, List.getElem?_append_right le_rfl, Nat.sub_self, List.getElem?_cons_zero]

/-- A pass over a message moves the boundary by one and leaves the queue and the other sequences alone. -/
theorem encodeElement_within {done rest : List Nat} {v : Nat} (hs : h.sequences[seq]? = some (done ++ v :: rest))
    (hv : v ≤ 2047) : ∃ h', encodeElement seq done.length h = .next h' ∧
      h'.sequences = h.sequences.set seq (done ++ [encodedElement v] ++ rest) ∧
      h'.machine.pending = h.machine.pending := by
  obtain ⟨hn, -⟩ | ⟨w, hw, -, hrun⟩ | ⟨w, hw, habove, -⟩ := encodeElement_cases seq done.length h
  · cases hn.symm.trans (element_boundary hs)
  · cases hw.symm.trans (element_boundary hs)
    refine ⟨_, hrun, (HostState.writeElement_eq (by exact hs) _ _).trans ?_, rfl⟩
    simp [encodedElement]
  · cases hw.symm.trans (element_boundary hs)
    omega

/-- A pass over a value above 2047 faults (R42). -/
theorem encodeElement_above {done rest : List Nat} {v : Nat} (hs : h.sequences[seq]? = some (done ++ v :: rest))
    (hv : 2047 < v) : encodeElement seq done.length h = .fault .preconditionViolation := by
  obtain ⟨hn, -⟩ | ⟨w, hw, hwithin, -⟩ | ⟨-, -, -, hrun⟩ := encodeElement_cases seq done.length h
  · cases hn.symm.trans (element_boundary hs)
  · cases hw.symm.trans (element_boundary hs)
    omega
  · exact hrun

/-- When a pass answers a next state, the later passes go on from it. -/
theorem encodeElements_succ_of_next {h' : HostState} {i : Nat} (hrun : encodeElement seq i h = .next h') (n : Nat) :
    encodeElements seq (n + 1) i h = encodeElements seq n (i + 1) h' := by
  simp [encodeElements, hrun]

/-- A sequence that was written reads as what was written. -/
theorem sequences_getElem?_of_set {h' : HostState} {values written : List Nat} (hs : h.sequences[seq]? = some values)
    (hset : h'.sequences = h.sequences.set seq written) : h'.sequences[seq]? = some written := by
  rw [hset, List.getElem?_set_self (List.getElem?_eq_some_iff.1 hs).1]

/-- The passes over the remaining elements, when each is a message. -/
theorem encodeElements_within {done rest : List Nat} (hs : h.sequences[seq]? = some (done ++ rest))
    (hrest : ∀ v ∈ rest, v ≤ 2047) : ∃ h', encodeElements seq rest.length done.length h = .next h' ∧
      h'.sequences = h.sequences.set seq (done ++ rest.map encodedElement) ∧
      h'.machine.pending = h.machine.pending := by
  induction rest generalizing done h with
  | nil =>
    obtain ⟨hlt, hget⟩ := List.getElem?_eq_some_iff.1 hs
    exact ⟨h, rfl, by rw [List.map_nil, ← hget, List.set_getElem_self], rfl⟩
  | cons v rest ih =>
    obtain ⟨hv, hrest⟩ := List.forall_mem_cons.1 hrest
    obtain ⟨h₁, hrun₁, hset₁, hpend₁⟩ := encodeElement_within hs hv
    obtain ⟨h₂, hrun₂, hset₂, hpend₂⟩ := ih (sequences_getElem?_of_set hs hset₁) hrest
    refine ⟨h₂, (encodeElements_succ_of_next hrun₁ _).trans (by simpa using hrun₂), ?_, hpend₂.trans hpend₁⟩
    simp [hset₂, hset₁]

/-- The passes over the remaining elements, when one of them is above 2047. -/
theorem encodeElements_above {done rest : List Nat} (hs : h.sequences[seq]? = some (done ++ rest))
    (hrest : ∃ v ∈ rest, 2047 < v) :
    encodeElements seq rest.length done.length h = .fault .preconditionViolation := by
  induction rest generalizing done h with
  | nil => simp at hrest
  | cons v rest ih =>
    obtain hv | hv := Nat.lt_or_ge 2047 v
    · simp [encodeElements, encodeElement_above hs hv]
    · have hlater : ∃ w ∈ rest, 2047 < w := by simpa [hv.not_gt] using hrest
      obtain ⟨h₁, hrun₁, hset₁, -⟩ := encodeElement_within hs hv
      have hrun₂ := ih (sequences_getElem?_of_set hs hset₁) hlater
      exact (encodeElements_succ_of_next hrun₁ _).trans (by simpa using hrun₂)

/-- ENCODE_ALL makes one pass for each element of the sequence, from the first on. -/
theorem encodeAll_eq_encodeElements {values : List Nat} (hs : h.sequences[seq]? = some values) :
    encodeAll seq h = encodeElements seq values.length 0 h := by
  simp [encodeAll, hs]

/-- ENCODE_ALL of a sequence of messages. -/
theorem encodeAll_within {values : List Nat} (hs : h.sequences[seq]? = some values) (hvalues : ∀ v ∈ values, v ≤ 2047) :
    ∃ h', encodeAll seq h = .next h' ∧ h'.sequences = h.sequences.set seq (values.map encodedElement) ∧
      h'.machine.pending = h.machine.pending := by
  rw [encodeAll_eq_encodeElements hs]
  exact encodeElements_within (done := []) hs hvalues

end EncodeAll

/-- Settles O50, by induction over the elements still to be replaced. -/
theorem encodeAllEncodesEachElement : Obligations.EncodeAllEncodesEachElement := by
  unfold Obligations.EncodeAllEncodesEachElement
  intro h seq values hs
  refine ⟨fun within => encodeAll_within hs within, fun above => ?_⟩
  rw [encodeAll_eq_encodeElements hs]
  exact encodeElements_above (done := []) hs above

/-- The line `ENCODE_ALL x`, once `x` names a sequence on which ENCODE_ALL completes. -/
theorem Session.runLine_encodeAll_name {ses : Session} {x seq : Nat} {h' : HostState}
    (hx : lookup x ses.bound = .ok (.sequence seq)) (hrun : encodeAll seq ses.host = .next h') :
    ses.runLine none (.encodeAll (.name x)) = .next { ses with host := h' } := by
  have hseq : (ListOperand.name x).resolve ses = .ok (seq, ses.host) := by
    simp [ListOperand.resolve, hx, Except.bind, Except.map, Value.sequenceNumber, orNoField]
  simp [Session.runLine, Line.run, hseq, withOperand, hrun, ofHost, Session.bind]

/-- `x[i]` of a name bound to a sequence. -/
theorem resolve_elem_of_lookup {ses : Session} {x seq : Nat} (hx : lookup x ses.bound = .ok (.sequence seq)) (i : Nat) :
    (Operand.elem x i).resolve ses = orNoField (ses.host.element seq i) := by
  simp [Operand.resolve, hx, Except.bind, Value.sequenceNumber]

/-- Settles O51: the name still stands for the same sequence, which is the one that ENCODE_ALL has replaced in place. -/
theorem encodeAllLineChangesNamedSequence : Obligations.EncodeAllLineChangesNamedSequence := by
  unfold Obligations.EncodeAllLineChangesNamedSequence
  intro ses x seq i v values hx hs hvalues hi
  obtain ⟨h', hrun, hset, -⟩ := encodeAll_within hs hvalues
  have helem : h'.element seq i = some (encodedElement v) := by
    rw [HostState.element_eq (sequences_getElem?_of_set hs hset), List.getElem?_map, hi, Option.map_some]
  refine ⟨_, Session.runLine_encodeAll_name hx hrun, rfl, ?_⟩
  rw [resolve_elem_of_lookup (ses := { ses with host := h' }) hx, helem]
  rfl

/-! ### FIND (R65 to R67): the entries' outcomes, and the verdict on them -/

/-- The outcome that DEC of `c` puts on the corrector's ports (R56, R58). -/
def decodeOutcome (c : Codeword) : DecodeOutcome :=
  outcomeOf (uncorrectable (row (syndrome c) (totalParity c)))
    (recoveredWord c (syndrome c) (row (syndrome c) (totalParity c)))

/-- DEC of an entry, as a host samples it: the outcome does not depend on the state it starts from. -/
theorem transact_dec (c : Codeword) (s : State) :
    transact (.dec c) (fun t => t.corrector.outcome) s = .next (decodeOutcome c,
      s.driveWired (syndromeDecoderPorts c) (correctorPorts c (syndrome c) (totalParity c))) := by
  simp [transact, decodeOutcome]

/-- Every word decodes to exactly one outcome. -/
theorem decodesTo_iff (c : Codeword) (o : DecodeOutcome) : decodesTo c o ↔ decodeOutcome c = o := by
  simp [decodesTo, decodeOutcome]

/-- FIND goes past exactly the entries that its verdict leaves undecided, at whatever index they stand. -/
theorem verdict_eq_none_iff (key i : Nat) (c : Codeword) : verdict key i (decodeOutcome c) = none ↔ passes key c := by
  cases ho : decodeOutcome c <;> simp [passes, decodesTo_iff, verdict, ho]

theorem verdict_eq_found_iff (key i k : Nat) (c : Codeword) :
    verdict key i (decodeOutcome c) = some (.found k) ↔
      i = k ∧ ∃ v, decodesTo c (.recoveredMessage v) ∧ v.val = key := by
  cases ho : decodeOutcome c <;> simp [decodesTo_iff, verdict, ho, and_comm]

theorem verdict_eq_corrupted_iff (key i : Nat) (c : Codeword) :
    verdict key i (decodeOutcome c) = some .corrupted ↔ decodesTo c .uncorrectableError := by
  cases ho : decodeOutcome c <;> simp [decodesTo_iff, verdict, ho]

/-- The sequential FIND answers the first verdict on the outcomes of all entries, those behind it included, and leaves the
queue alone. -/
theorem findFrom_eq_firstVerdict (key i : Nat) (cs : List Codeword) (s : State) :
    ∃ t, findFrom key i cs s = .next (firstVerdict key i (cs.map decodeOutcome), t) ∧ t.pending = s.pending := by
  induction cs generalizing i s with
  | nil => exact ⟨s, rfl, rfl⟩
  | cons c cs ih =>
    simp only [findFrom, transact_dec, List.map_cons, firstVerdict]
    cases verdict key i (decodeOutcome c) with
    | some r => exact ⟨_, rfl, rfl⟩
    | none => exact ih (i + 1) _

/-- Decoding every entry gives every entry's outcome: DEC never fails (R61). -/
theorem decodeEach_eq_map (cs : List Codeword) (s : State) : decodeEach cs s = .next (cs.map decodeOutcome) := by
  induction cs with
  | nil => rfl
  | cons c cs ih => simp [decodeEach, transact_dec, ih]

/-- No verdict is reached exactly when every entry passes. -/
theorem firstVerdict_eq_notFound_iff (key i : Nat) (cs : List Codeword) :
    firstVerdict key i (cs.map decodeOutcome) = .notFound ↔ ∀ c ∈ cs, passes key c := by
  induction cs generalizing i with
  | nil => simp [firstVerdict]
  | cons c cs ih =>
    rw [List.map_cons, firstVerdict, List.forall_mem_cons, ← verdict_eq_none_iff key i c, ← ih (i + 1)]
    cases ho : decodeOutcome c with
    | uncorrectableError => simp [verdict]
    | recoveredMessage v => by_cases hv : v.val = key <;> simp [verdict, hv]

/-- A verdict is reached exactly when an entry gives it and every earlier entry passes. -/
theorem firstVerdict_eq_iff_of_ne_notFound (key i : Nat) (cs : List Codeword) {r : FindResult} (hr : r ≠ .notFound) :
    firstVerdict key i (cs.map decodeOutcome) = r ↔
      ∃ (k : Nat) (h : k < cs.length), verdict key (i + k) (decodeOutcome cs[k]) = some r ∧
        ∀ c ∈ cs.take k, passes key c := by
  induction cs generalizing i with
  | nil => simpa [firstVerdict] using hr.symm
  | cons c cs ih =>
    rw [List.map_cons, firstVerdict, ← Nat.or_exists_add_one]
    cases hv : verdict key i (decodeOutcome c) with
    | none =>
      have hpass : passes key c := (verdict_eq_none_iff key i c).1 hv
      simp [hv, hpass, ih, Nat.add_right_comm, Nat.add_assoc]
    | some r' =>
      have hstop : ¬ passes key c := fun hpass => by
        cases hv.symm.trans ((verdict_eq_none_iff key i c).2 hpass)
      simp [hv, hstop]

/-- Settles O52: FIND's result is the first verdict, which is the one of the first entry that does not pass. -/
theorem findReportsFirstDecidingEntry : Obligations.FindReportsFirstDecidingEntry := by
  unfold Obligations.FindReportsFirstDecidingEntry
  intro cs key s
  obtain ⟨t, hrun, hpend⟩ := findFrom_eq_firstVerdict key 0 cs s
  refine ⟨_, t, hrun, hpend, fun k => ?found, ?corrupted, firstVerdict_eq_notFound_iff key 0 cs⟩
  case found =>
    rw [firstVerdict_eq_iff_of_ne_notFound key 0 cs (by simp)]
    simp only [verdict_eq_found_iff, Nat.zero_add]
    constructor
    · rintro ⟨_, h, ⟨rfl, v, hdec, hkey⟩, hbefore⟩
      exact ⟨h, v, hdec, hkey, hbefore⟩
    · rintro ⟨h, v, hdec, hkey, hbefore⟩
      exact ⟨k, h, ⟨rfl, v, hdec, hkey⟩, hbefore⟩
  case corrupted =>
    rw [firstVerdict_eq_iff_of_ne_notFound key 0 cs (by simp)]
    simp only [verdict_eq_corrupted_iff]

/-- Settles O53: both reach the first verdict on the same outcomes. -/
theorem parallelFindAgreesWithFind : Obligations.ParallelFindAgreesWithFind := by
  unfold Obligations.ParallelFindAgreesWithFind
  intro cs key s
  obtain ⟨t, hrun, -⟩ := findFrom_eq_firstVerdict key 0 cs s
  exact ⟨_, t, hrun, by rw [findParallel, decodeEach_eq_map]⟩

end Sys2Proof.Machine
end

section
/-! PROOFS. The obligations of 60_exceptions.md: why a step stops, that the requests of a careful host never stop the
machine, and that the status code tells the outcomes of COR apart. -/

namespace Sys2Proof.Machine

/-! ### The rows of R50's table and the code R70 gives them (R73) -/

/-- Each row applies exactly under its own condition on syndrome and parity. -/
theorem row_eq_iff (y : Syndrome) (p : Bool) :
    (row y p = .noError ↔ y = 0#4 ∧ p = false) ∧ (row y p = .degenerate ↔ y = 0#4 ∧ p = true) ∧
      (row y p = .singleError ↔ y ≠ 0#4 ∧ p = true) ∧ (row y p = .doubleError ↔ y ≠ 0#4 ∧ p = false) := by
  obtain ⟨-, hy, hp⟩ | ⟨-, hy, hp⟩ | ⟨-, hy, hp⟩ | ⟨-, hy, hp⟩ := row_cases y p <;> simp [hy, hp]

/-- R70's code `{uncorrectable_o, single_err_o}` of a row. -/
def rowCode (r : Row) : BitVec 2 := BitVec.ofBool (uncorrectable r) ++ BitVec.ofBool (singleErr r)

@[simp] theorem correctorPorts_code (c : Codeword) (y : Syndrome) (p : Bool) :
    (correctorPorts c y p).code = some (rowCode (row y p)) := rfl

/-- The code names its row, but for rows 1 and 2, which share 00; no row has 11. -/
theorem rowCode_separates (r : Row) :
    rowCode r ≠ 0b11#2 ∧ (rowCode r = 0b00#2 ↔ r = .noError ∨ r = .degenerate) ∧
      (rowCode r = 0b01#2 ↔ r = .singleError) ∧ (rowCode r = 0b10#2 ↔ r = .doubleError) := by
  cases r <;> decide

/-- Settles O31: the row is the one R50's table picks, and the code on the ports is that row's. -/
theorem corCodeSeparatesCorrectedAndUncorrectable : Obligations.CorCodeSeparatesCorrectedAndUncorrectable := by
  unfold Obligations.CorCodeSeparatesCorrectedAndUncorrectable
  intro c y p s
  obtain ⟨row1, row2, row3, row4⟩ := row_eq_iff y p
  exact ⟨_, rowCode (row y p), row y p, exec_cor c y p s, rfl, rfl, row1, row2, row3, row4,
    correctorPorts_code c y p, rowCode_separates (row y p)⟩

/-! ### Safe requests (R42, R82) -/

/-- ENC's words of the row's width are the messages (R26, R42). -/
theorem lt_width_iff_of_enc {op : Operation} (h : op = .enc) (w : Nat) : w < 2 ^ op.width ↔ w ≤ 2047 := by
  subst h
  exact Nat.lt_succ_iff

/-- A request is safe exactly when every input is driven and its word has its row's width; for ENC that is R42's range. -/
theorem safeRequest_iff (r : Request) : safeRequest r ↔ r.unknown = 0 ∧ r.word < 2 ^ r.operation.width := by
  constructor
  · rintro ⟨i, hd, hi⟩
    obtain rfl := decode_eq_ok_iff.1 hd
    cases i with
    | enc v => exact ⟨rfl, Laws.WordFits.enc v hi⟩
    | syn c => exact ⟨rfl, Laws.WordFits.syn c hi⟩
    | cor c y p => exact ⟨rfl, Laws.WordFits.cor c y p hi⟩
    | dec c => exact ⟨rfl, Laws.WordFits.dec c hi⟩
  · obtain ⟨op, w, u⟩ := r
    rintro ⟨rfl, hw⟩
    exact ⟨decodeWord op w, decode_of_lt_width hw, wellFormed_decodeWord hw⟩

/-- A step on a safe request runs it and leaves the rest of the queue pending. -/
theorem step_safeRequest {s : State} {r : Request} {rest : List Request} (hp : s.pending = r :: rest)
    (hr : safeRequest r) : ∃ t, step s = .next t ∧ t.pending = rest := by
  obtain ⟨i, hd, hi⟩ := hr
  obtain rfl := decode_eq_ok_iff.1 hd
  obtain ⟨t, hstep, -, ht⟩ := step_wellFormed hp hi
  exact ⟨t, hstep, ht⟩

/-- A step of a safe machine answers a next state, which has the oldest request behind it, if there was one. -/
theorem step_of_safe {s : State} (hs : s.safe) : ∃ t, step s = .next t ∧ t.pending = s.pending.drop 1 := by
  cases hp : s.pending with
  | nil => exact ⟨s, stepIdlesWithoutRequest s hp, hp⟩
  | cons r rest => exact step_safeRequest hp (hs r (by simp [hp]))

/-- A safe machine stays safe when requests leave its queue. -/
theorem safe_of_pending_eq_drop {s t : State} {n : Nat} (hs : s.safe) (ht : t.pending = s.pending.drop n) : t.safe :=
  fun r hr => hs r (List.mem_of_mem_drop (ht ▸ hr))

/-- Settles O49, by induction on the steps: the first answers a next state that is safe again. -/
theorem safeRunsNeverStop : Obligations.SafeRunsNeverStop := by
  unfold Obligations.SafeRunsNeverStop
  intro s k hs
  induction k generalizing s with
  | zero => exact ⟨s, rfl, rfl⟩
  | succ k ih =>
    obtain ⟨u, hstep, hu⟩ := step_of_safe hs
    obtain ⟨t, hrun, ht⟩ := ih u (safe_of_pending_eq_drop hs hu)
    refine ⟨t, (run_succ_of_step hstep k).trans hrun, ?_⟩
    rw [ht, hu, List.drop_drop, Nat.add_comm]

/-! ### Why a step stops (R69, R71) -/

/-- A step on a request that does not decode rejects it. -/
theorem step_of_decode_error {s : State} {r : Request} {rest : List Request} {e : DecodeError}
    (hp : s.pending = r :: rest) (hd : decode r = .error e) : step s = rejectRequest e := by
  obtain ⟨hp', -⟩ | ⟨r', rest', i, hp', hd', -⟩ | ⟨r', rest', e', hp', hd', hs⟩ := step_cases s
  · cases hp.symm.trans hp'
  · cases hp.symm.trans hp'
    cases hd.symm.trans hd'
  · cases hp.symm.trans hp'
    cases hd.symm.trans hd'
    exact hs

/-- All that a step can do with the oldest request, one case for each reason to stop and one for a safe request. -/
theorem step_request_cases {s : State} {r : Request} {rest : List Request} (hp : s.pending = r :: rest) :
    (r.unknown ≠ 0 ∧ step s = .fault .undrivenInput) ∨
      (r.unknown = 0 ∧ r.operation = .enc ∧ 2047 < r.word ∧ step s = .fault .preconditionViolation) ∨
      (r.unknown = 0 ∧ r.operation ≠ .enc ∧ 2 ^ r.operation.width ≤ r.word ∧
        step s = .refused (.inputTooWide r.operation)) ∨
      (r.unknown = 0 ∧ r.word < 2 ^ r.operation.width ∧ ∃ t, step s = .next t) := by
  obtain ⟨hu, hd⟩ | ⟨hu, hf, hd⟩ | ⟨hu, hf, hd⟩ := decode_cases r
  · exact .inl ⟨hu, step_of_decode_error hp hd⟩
  · by_cases hw : r.word < 2 ^ r.operation.width
    · obtain ⟨t, hstep, -⟩ := step_safeRequest hp ((safeRequest_iff r).2 ⟨hu, hw⟩)
      exact .inr (.inr (.inr ⟨hu, hw, t, hstep⟩))
    · have henc : r.operation = .enc := ((Request.fits_iff r).1 hf).resolve_right hw
      have habove : 2047 < r.word := Nat.not_le.1 (mt (lt_width_iff_of_enc henc r.word).2 hw)
      have hexec : step s = exec (.enc r.word) { s with pending := rest } :=
        step_of_decode hp (by rw [hd, henc]; rfl)
      exact .inr (.inl ⟨hu, henc, habove, hexec.trans (exec_enc_above habove _)⟩)
  · have hwide : ¬ (r.operation = .enc ∨ r.word < 2 ^ r.operation.width) := by simp [← Request.fits_iff, hf]
    obtain ⟨henc, hw⟩ := not_or.1 hwide
    exact .inr (.inr (.inl ⟨hu, henc, Nat.not_lt.1 hw, step_of_decode_error hp hd⟩))

/-- Settles O12: with nothing pending a step idles, and each case of a step on the oldest request rules out the others. -/
theorem stepStopsExactlyWhen : Obligations.StepStopsExactlyWhen := by
  unfold Obligations.StepStopsExactlyWhen
  intro s
  cases hp : s.pending with
  | nil => simp [stepIdlesWithoutRequest s hp]
  | cons r rest =>
    obtain ⟨hu, hs⟩ | ⟨hu, henc, hw, hs⟩ | ⟨hu, henc, hw, hs⟩ | ⟨hu, hw, t, hs⟩ := step_request_cases hp
    · simp [hs, safeRequest_iff, hu]
    · have wide : 2 ^ Operation.enc.width ≤ r.word := hw
      simp [hs, safeRequest_iff, hu, henc, hw, wide]
    · simp [hs, safeRequest_iff, hu, henc, hw, @eq_comm Refusal]
    · have legal : r.operation = .enc → r.word ≤ 2047 := fun henc => (lt_width_iff_of_enc henc r.word).1 hw
      simpa [hs, safeRequest_iff, hu, hw] using legal

end Sys2Proof.Machine
end

section
/-! PROOFS. The obligations of 70_reset_and_hazards.md: what holds at reset, that the first transaction needs nothing
before it, and that an undriven input gives no result. -/

namespace Sys2Proof.Machine

/-! ### Reset (R78, R79) -/

/-- Settles O44: no block is driven, so each is settled, none is wired to another, and ENC shares the ports with none. -/
theorem resetMeetsInvariant : Obligations.ResetMeetsInvariant := by
  unfold Obligations.ResetMeetsInvariant
  have settled : State.reset.settled := ⟨.inl rfl, .inl rfl, .inl rfl⟩
  have wired : State.reset.wired := .inl rfl
  have oneOperation : State.reset.oneOperation := .inl rfl
  exact ⟨settled, wired, oneOperation⟩

/-- A step on an operation's request asked for ahead of all others runs the operation on the state before the asking. -/
@[simp] theorem step_submit_encode (s : State) (i : Instr) : step (s.submit (encode i)) = exec i s :=
  step_of_decode (State.submit_pending s (encode i)) (decode_encode i)

/-- Settles O45: the outputs at reset have no value by definition, and a step on a submitted request is the operation's
own execution, whose ports do not depend on the state it starts from. -/
theorem firstTransactionNeedsNoBoot : Obligations.FirstTransactionNeedsNoBoot := by
  unfold Obligations.FirstTransactionNeedsNoBoot
  refine ⟨?noOutputAtReset, ?sameFromReset⟩
  case noOutputAtReset => exact ⟨rfl, rfl, rfl, rfl, rfl, rfl, rfl⟩
  case sameFromReset =>
    intro i s hi
    obtain ⟨t, u, ht, hu, same⟩ := outputsDependOnInputsOnly i State.reset s hi
    exact ⟨t, u, u, (step_submit_encode State.reset i).trans ht, (step_submit_encode s i).trans hu, hu, same,
      samePorts_of_exec hu hu⟩

/-! ### Undriven inputs (R82) -/

/-- Settles O11: of the reasons to stop in O12, an undriven input of the oldest request is the first. -/
theorem undrivenInputFaults : Obligations.UndrivenInputFaults := by
  unfold Obligations.UndrivenInputFaults
  intro s r rest hp hu
  obtain ⟨undriven_iff, -⟩ := stepStopsExactlyWhen s
  exact undriven_iff.2 ⟨r, rest, hp, hu⟩

end Sys2Proof.Machine
end

section
/-! PROOFS. The obligation of 95_test_vectors.md section 2: ENC is linear over GF(2). The valid codewords are closed under
XOR, since they are the words of syndrome 0 and even parity and both of these are linear, and extraction, which undoes
ENC, is linear too. -/

namespace Sys2Proof.Machine

/-- Extraction of a XOR of words is the XOR of their messages. -/
theorem extract_xor (c d : Codeword) : extract (c ^^^ d) = extract c ^^^ extract d := by
  refine BitVec.eq_of_getLsbD_eq fun k hk => ?_
  rw [BitVec.getLsbD_xor, extract_getLsbD _ hk, extract_getLsbD _ hk, extract_getLsbD _ hk, pos_xor]

/-- The XOR of two valid codewords is a valid codeword. -/
theorem validCodeword_xor {c d : Codeword} (hc : validCodeword c) (hd : validCodeword d) : validCodeword (c ^^^ d) := by
  obtain ⟨syn_c, par_c⟩ := (validCodeword_iff c).1 hc
  obtain ⟨syn_d, par_d⟩ := (validCodeword_iff d).1 hd
  refine (validCodeword_iff _).2 ⟨?syndrome, ?parity⟩
  case syndrome => rw [syndrome_xor, syn_c, syn_d, BitVec.xor_self]
  case parity => rw [totalParity_xor, par_c, par_d, Bool.xor_self]

/-- ENC of a XOR of messages is the XOR of their codewords: that XOR is the codeword of some message, and extraction
says which. -/
theorem encodeMessage_xor (a b : Message) : encodeMessage (a ^^^ b) = encodeMessage a ^^^ encodeMessage b := by
  obtain ⟨m, hm⟩ : validCodeword (encodeMessage a ^^^ encodeMessage b) := validCodeword_xor ⟨a, rfl⟩ ⟨b, rfl⟩
  have message : a ^^^ b = m := by
    rw [← extract_encodeMessage m, ← hm, extract_xor, extract_encodeMessage, extract_encodeMessage]
  rw [message, hm]

/-- Settles O20: each of the three transactions drives its message's codeword, and the codewords add up. -/
theorem encIsLinear : Obligations.EncIsLinear := by
  unfold Obligations.EncIsLinear
  intro a b s
  exact ⟨_, _, _, encodeMessage a, encodeMessage b, exec_enc_toNat a s, rfl, exec_enc_toNat b s, rfl,
    exec_enc_toNat (a ^^^ b) s, congrArg some (encodeMessage_xor a b)⟩

end Sys2Proof.Machine
end
